-- ==== Sys2Proof/Word.lean ====
section
/-! DEFINITION. The engine's word types (spec/00_scope.md R8, R9, R11; R61 and R72 of
spec/30_encoding.md for the two packets). -/

namespace Sys2Proof

/-- A Word: "a 64-bit unsigned integer; the cipher's native unit" (R17). It is also the width of a
buffer-memory address (`AW`) and of a length (`LW`), R9. -/
abbrev Word := BitVec 64

/-- One byte of buffer memory (`BYTE`, R9). -/
abbrev Byte := BitVec 8

/-- A command packet (`CMD_BITS`, R61). -/
abbrev Packet := BitVec 256

/-- A response packet (`RSP_BITS`, R72). -/
abbrev ResponsePacket := BitVec 192

end Sys2Proof
end

