-- ==== Sys2Proof/Config.lean ====
section
/-! DEFINITION. What is fixed for the engine (spec/00_scope.md R8, R9) and the free values: what the
spec calls unspecified and no definition of this model may choose. -/

namespace Sys2Proof

/-- `BLOCK_BYTES`, the bytes of a block (R8). -/
abbrev Config.blockBytes : Nat := 16

/-- `ROUNDS - 1`: the iterations of the key schedule, which runs "from 0 to ROUNDS-2" (R8, R101). -/
abbrev Config.keyRounds : Nat := 31

/-- `ALPHA`, the right-rotation amount of the round (R8). -/
abbrev Config.alpha : Nat := 8

/-- `BETA`, the left-rotation amount of the round (R8). -/
abbrev Config.beta : Nat := 3

/-- `VAR_128_128`, the one legal variant code of `INIT` (R9, R68). -/
abbrev Config.varCode : BitVec 4 := 7

/-- The number of byte locations of buffer memory, `2^AW` (R40). -/
abbrev Config.memSize : Nat := 2 ^ 64

/-- FREE VALUE. The n-th unspecified Word: no body, so nothing can be proved of any of its values. It
stands for `RK` after `FINISH` and after the reset event (R24, R108, R166), for `W0`, `W1`, `RND`, `CHK`
between commands (R26, R27), and for which bytes an abandoned buffer command wrote (R167).
DESIGN CHOICE (notes/assumptions/1.md), safe. -/
opaque Config.freeWord : Nat → Word

end Sys2Proof
end

