-- ==== Sys2Proof/Syntax.lean ====
section
/-! DEFINITION. The command set: one constructor per row of spec/opcode_table.json (R62). -/

namespace Sys2Proof

/-- The nine commands, operands in packet order `A, B, C` (R62, R75). The `Context` argument of DOC's
operations is no operand: there is one slot (R62). -/
inductive Instr where
  /-- `INIT var, k0, k1` (R103). -/
  | init (var : BitVec 4) (k0 k1 : Word)
  /-- `INITB kaddr` (R105). -/
  | initb (kaddr : Word)
  /-- `ENCBLK w0, w1` (R117). -/
  | encblk (p0 p1 : Word)
  /-- `DECBLK w0, w1` (R120). -/
  | decblk (c0 c1 : Word)
  /-- `ENCBUF src, dst, len` (R126). -/
  | encbuf (src dst len : Word)
  /-- `DECBUF src, dst, len` (R130). -/
  | decbuf (src dst len : Word)
  /-- `FINISH` (R108). -/
  | finish
  /-- `RNDF x, y, k` (R87). -/
  | rndf (x y k : Word)
  /-- `RNDI x, y, k` (R89). -/
  | rndi (x y k : Word)
  deriving DecidableEq, Repr

end Sys2Proof
end

