-- ==== Sys2Proof/WellFormed.lean ====
section
/-! DEFINITION. Which command terms are commands of the engine. -/

namespace Sys2Proof

/-- `VAR = 7` "is the only legal value in `INIT`" (R68); every value of every other operand is legal
(R69), so the other commands have no check. -/
def Instr.wellFormed : Instr → Bool
  | .init var _ _ => var == Config.varCode
  | .initb _ => true
  | .encblk _ _ => true
  | .decblk _ _ => true
  | .encbuf _ _ _ => true
  | .decbuf _ _ _ => true
  | .finish => true
  | .rndf _ _ _ => true
  | .rndi _ _ _ => true

end Sys2Proof
end

