-- ==== Sys2Proof/Decode.lean ====
section
/-! DEFINITION. The command packet, the opcode rows, the total decoder and the encoder
(spec/30_encoding.md R61 to R66, R77). -/

namespace Sys2Proof

/-- A packet from its four 64-bit lanes, written as the spec writes one: `Q3 Q2 Q1 Q0` (R61). -/
def lanes (q3 q2 q1 q0 : Word) : Packet := q3 ++ q2 ++ q1 ++ q0

/-- The control lane `Q0 = {RSV, VAR, OP}` with `RSV = 0` (R61). -/
def controlLane (var : BitVec 4) (op : BitVec 8) : Word := (0 : BitVec 52) ++ var ++ op

/-- The field `OP`, bits 7:0 (R61). -/
def fieldOp (p : Packet) : BitVec 8 := p.extractLsb' 0 8

/-- The field `VAR`, bits 11:8 (R61). -/
def fieldVar (p : Packet) : BitVec 4 := p.extractLsb' 8 4

/-- The field `RSV`, bits 63:12 (R61). -/
def fieldRsv (p : Packet) : BitVec 52 := p.extractLsb' 12 52

/-- The control lane `Q0`, bits 63:0 (R61). -/
def fieldControl (p : Packet) : Word := p.extractLsb' 0 64

/-- The field `A`, bits 127:64 (R61). -/
def fieldA (p : Packet) : Word := p.extractLsb' 64 64

/-- The field `B`, bits 191:128 (R61). -/
def fieldB (p : Packet) : Word := p.extractLsb' 128 64

/-- The field `C`, bits 255:192 (R61). -/
def fieldC (p : Packet) : Word := p.extractLsb' 192 64

/-- The mnemonics of the opcode map (R64). -/
inductive Mnemonic where
  | init | initb | encblk | decblk | encbuf | decbuf | finish | rndf | rndi
  deriving DecidableEq, Repr

/-- One row of R65: the mask selects the bits compared, `pattern` is the row's `match`. -/
structure OpcodeRow where
  mnemonic : Mnemonic
  mask : Packet
  pattern : Packet
  deriving DecidableEq, Repr

/-- `ONES`, a lane compared in full (R65). -/
def onesLane : Word := BitVec.allOnes 64

/-- The nine rows of R65. -/
def opcodeRows : List OpcodeRow :=
  [ ⟨.init, lanes onesLane 0 0 onesLane, lanes 0 0 0 0x0701⟩,
    ⟨.initb, lanes onesLane onesLane 0 onesLane, lanes 0 0 0 0x0002⟩,
    ⟨.encblk, lanes onesLane 0 0 onesLane, lanes 0 0 0 0x0003⟩,
    ⟨.decblk, lanes onesLane 0 0 onesLane, lanes 0 0 0 0x0004⟩,
    ⟨.encbuf, lanes 0 0 0 onesLane, lanes 0 0 0 0x0005⟩,
    ⟨.decbuf, lanes 0 0 0 onesLane, lanes 0 0 0 0x0006⟩,
    ⟨.finish, lanes onesLane onesLane onesLane onesLane, lanes 0 0 0 0x0007⟩,
    ⟨.rndf, lanes 0 0 0 onesLane, lanes 0 0 0 0x0008⟩,
    ⟨.rndi, lanes 0 0 0 onesLane, lanes 0 0 0 0x0009⟩ ]

/-- "A packet `p` is the command of a row iff `(p and mask) = match`" (R65). -/
def rowMatches (p : Packet) (r : OpcodeRow) : Bool := p &&& r.mask == r.pattern

/-- The operands of a packet that matches a row of this mnemonic (R62, R77). -/
def operandsOf (p : Packet) : Mnemonic → Instr
  | .init => .init (fieldVar p) (fieldA p) (fieldB p)
  | .initb => .initb (fieldA p)
  | .encblk => .encblk (fieldA p) (fieldB p)
  | .decblk => .decblk (fieldA p) (fieldB p)
  | .encbuf => .encbuf (fieldA p) (fieldB p) (fieldC p)
  | .decbuf => .decbuf (fieldA p) (fieldB p) (fieldC p)
  | .finish => .finish
  | .rndf => .rndf (fieldA p) (fieldB p) (fieldC p)
  | .rndi => .rndi (fieldA p) (fieldB p) (fieldC p)

/-- `Decode(p)` of R77: total, and it reads no engine state. `none` is the spec's `Reserved`. -/
def decode (p : Packet) : Option Instr :=
  (opcodeRows.find? (rowMatches p)).map fun r => operandsOf p r.mnemonic

/-- `Encode` of R77: "place `OP`, `VAR` and the used operands, zero elsewhere". -/
def encode : Instr → Packet
  | .init var k0 k1 => lanes 0 k1 k0 (controlLane var 0x01)
  | .initb kaddr => lanes 0 0 kaddr (controlLane 0 0x02)
  | .encblk p0 p1 => lanes 0 p1 p0 (controlLane 0 0x03)
  | .decblk c0 c1 => lanes 0 c1 c0 (controlLane 0 0x04)
  | .encbuf src dst len => lanes len dst src (controlLane 0 0x05)
  | .decbuf src dst len => lanes len dst src (controlLane 0 0x06)
  | .finish => lanes 0 0 0 (controlLane 0 0x07)
  | .rndf x y k => lanes k y x (controlLane 0 0x08)
  | .rndi x y k => lanes k y x (controlLane 0 0x09)

/-- The packet numbered as spec/opcode_table.json numbers it: `nbits` bits of `w`, the rest zero. A
packet is one value presented whole (R60), so no byte order comes in. -/
def tablePacket (nbits w : Nat) : Packet := BitVec.ofNat 256 (w % 2 ^ nbits)

/-- The command the decoder reads from that packet. -/
def decodeTableWord (nbits w : Nat) : Option Instr := decode (tablePacket nbits w)

end Sys2Proof
end

