-- ==== Sys2Proof/Machine/Operands.lean ====
section
/-! DEFINITION. The datapath's operations on Words, and how bytes become Words
(spec/00_scope.md R12 to R14, spec/20_memory.md R42, R43). Operands themselves are whole 64-bit fields of
the packet: there is no other operand form (R69). -/

namespace Sys2Proof.Machine

/-- `rotr64(a, r)` (R12). -/
def rotr64 (a : Word) (r : Nat) : Word := a.rotateRight r

/-- `rotl64(a, r)` (R12). -/
def rotl64 (a : Word) (r : Nat) : Word := a.rotateLeft r

/-- `zext_64(i)`: the Word whose value is the integer `i` (R13). -/
def zext64 (i : Nat) : Word := BitVec.ofNat 64 i

/-- `b[0] + b[1]*2^8 + b[2]*2^16 + ..` as an exact sum (R14). -/
def littleEndian : List Byte → Nat
  | [] => 0
  | b :: bs => b.toNat + 2 ^ 8 * littleEndian bs

/-- `le64(b[0..7])` (R14). -/
def le64 (bs : List Byte) : Word := BitVec.ofNat 64 (littleEndian bs)

/-- `bytes_le64(w)`: byte `j` is `w[8j+7 : 8j]` (R14). -/
def bytesLe64 (w : Word) : List Byte := (List.range 8).map fun j => w.extractLsb' (8 * j) 8

/-- `BlockFromBytes(b[0..15])`: word 0 from bytes 0..7, word 1 from bytes 8..15 (R43). -/
def blockFromBytes (bs : List Byte) : Word × Word := (le64 (bs.take 8), le64 (bs.drop 8))

/-- `BytesFromBlock(w0, w1)` (R43). -/
def bytesFromBlock (w : Word × Word) : List Byte := bytesLe64 w.1 ++ bytesLe64 w.2

end Sys2Proof.Machine
end

