-- ==== Sys2Proof/Machine/Flags.lean ====
section
/-! DEFINITION. The engine "has no status flags and no condition codes" (spec/10_state.md R29): the only
outcome indication of a command is the `STATUS` field of its response packet, which stands here
(spec/30_encoding.md R72, R73). -/

namespace Sys2Proof.Machine

/-- The three values of `STATUS`: "No other value is ever produced" (R73). -/
inductive Status where
  | ok | invalidLength | allocationFailure
  deriving DecidableEq, Repr

/-- The code of a status (R73). -/
def statusCode : Status → BitVec 8
  | .ok => 0x00
  | .invalidLength => 0x01
  | .allocationFailure => 0x02

/-- The response packet `R1 R0 S` with `S = {0, STATUS}` (R72). -/
def packResponse (status : Status) (r0 r1 : Word) : ResponsePacket :=
  r1 ++ r0 ++ (0 : BitVec 56) ++ statusCode status

/-- The field `STATUS`, bits 7:0 (R72). -/
def responseStatus (p : ResponsePacket) : BitVec 8 := p.extractLsb' 0 8

/-- The bits 63:8, "always zero" (R72). -/
def responseZero (p : ResponsePacket) : BitVec 56 := p.extractLsb' 8 56

/-- The field `R0`, bits 127:64 (R72). -/
def responseR0 (p : ResponsePacket) : Word := p.extractLsb' 64 64

/-- The field `R1`, bits 191:128 (R72). -/
def responseR1 (p : ResponsePacket) : Word := p.extractLsb' 128 64

end Sys2Proof.Machine
end

