-- ==== Sys2Proof/Machine/State.lean ====
section
/-! DEFINITION. The state of the engine and its platform as plain data, the reasons a step can stop,
and the state after reset (spec/10_state.md, spec/20_memory.md R40 and R50, spec/30_encoding.md R60,
spec/70_reset_and_hazards.md R166). -/

namespace Sys2Proof.Machine

/-- The spec's model-level outcomes of treatment `fault`: "the run has gone wrong" (R146). -/
inductive Fault where
  /-- The packet matches no opcode row (R66). Raised by `step` on such a packet, and by `INIT` with
  `VAR != 7`. Safe: the spec gives no effect. -/
  | reservedEncoding
  /-- A block or buffer command with `CTXV = 0` (R147). Raised by `ENCBLK`, `DECBLK`, `ENCBUF`, `DECBUF`.
  Safe: the spec gives no effect. -/
  | invalidContext
  deriving DecidableEq, Repr

/-- The spec's model-level outcomes of treatment `refuse`: "the model gives the command no meaning at
all" (R146). -/
inductive Refusal where
  /-- An instruction with no meaning yet; raised by no arm of `exec` now. Safe. -/
  | notModelled (mnemonic : String)
  /-- A region runs past address `2^64 - 1` (R59). Raised by `INITB`, `ENCBUF`, `DECBUF`. Safe. -/
  | addressWrap
  /-- `SRC != DST` and the two regions share a byte (R59). Raised by `ENCBUF`, `DECBUF`. Safe. -/
  | bufferOverlap
  /-- A byte of a region is outside `Admit` (R59). Raised by `INITB`, `ENCBUF`, `DECBUF`. Safe. -/
  | memoryNotAdmitted
  deriving DecidableEq, Repr

/-- The kinds of access `Admit` tells apart (R50). -/
inductive AccessKind where
  | read | write
  deriving DecidableEq, Repr

/-- One entry of the platform's `Admit` predicate: the `size` bytes from `base` and what the engine
may do with them. A list of these can write down any predicate on the `2^64` addresses (R50). -/
structure Region where
  base : Nat
  size : Nat
  canRead : Bool
  canWrite : Bool
  deriving DecidableEq, Repr

/-- What the outside world does to the engine, one event at a time, in the order it happens. -/
inductive Input where
  /-- A host presents a command packet, with the level of `ALLOC_GRANT` while it runs (R25, R60). -/
  | command (packet : Packet) (grant : Bool)
  /-- The reset event between commands (R166). -/
  | reset
  /-- A command that is accepted and that a reset abandons in flight (R167). -/
  | abandoned (packet : Packet) (grant : Bool)
  /-- A host, or another bus master, writes one byte of buffer memory between commands (R53, R174). -/
  | hostWrite (addr : Word) (value : Byte)
  /-- The platform changes what it admits, between commands (R50). -/
  | setAdmit (regions : List Region)
  deriving DecidableEq, Repr

/-- Buffer memory `MEM` as its listed bytes, addresses strictly rising (R40). -/
abbrev Memory := List Host.Cell

/-- The engine, its port, and the platform state it works on. -/
structure State where
  /-- `CTXV`, the context-valid bit (R23). -/
  ctxv : Bool
  /-- `RK[0] .. RK[31]`, the round-subkey register file (R21). -/
  rk : Vector Word 32
  /-- `W0`, the working register of word 0 (R26). -/
  w0 : Word
  /-- `W1`, the working register of word 1 (R26). -/
  w1 : Word
  /-- `RND`, the round index (R27). -/
  rnd : BitVec 5
  /-- `CHK`, the chunk index (R27). -/
  chk : BitVec 60
  /-- `MEM`, the buffer memory (R40); platform state. -/
  mem : Memory
  /-- The last packet returned on the response port; `none`: no response pending (R33, R60). -/
  response : Option ResponsePacket
  /-- What is still to happen at the engine's inputs, next event first; `[]`: the port is idle. -/
  inputs : List Input
  /-- `ALLOC_GRANT`, the input bit as presented now (R25). -/
  allocGrant : Bool
  /-- `Admit`, the platform's open parameter, as a list of regions (R50). -/
  admission : List Region
  /-- The model's own field: how many free values have been taken (notes/assumptions/1.md). -/
  fresh : Nat
  deriving DecidableEq, Repr

/-- The machine right after reset (R33): no context, port idle, no response pending. The spec leaves
`RK`, `W0`, `W1`, `RND`, `CHK` unspecified: zero here, DESIGN CHOICE (notes/assumptions/2.md), unsafe. Of
the open inputs, `ALLOC_GRANT` is tied to 1 and all memory is admitted, DESIGN CHOICE
(notes/assumptions/3.md), unsafe. No byte of memory is listed (notes/assumptions/4.md). -/
def State.reset : State where
  ctxv := false
  rk := Vector.replicate 32 0
  w0 := 0
  w1 := 0
  rnd := 0
  chk := 0
  mem := []
  response := none
  inputs := []
  allocGrant := true
  admission := [⟨0, Config.memSize, true, true⟩]
  fresh := 0

end Sys2Proof.Machine
end

