-- ==== Sys2Proof/Machine/Ops.lean ====
section
/-! DEFINITION. The named operations on memory, on the region checks, on the engine's registers and on
its ports. The engine takes no exception in the processor sense: there is no vector, nothing is saved
and nothing returned from (spec/60_exceptions.md R151, R153); what stands in an exception's place is
`respond` with an error status, and the reset event. -/

namespace Sys2Proof.Machine

/-- What one step answers. -/
abbrev Result := Host.Outcome State Fault Refusal

/-! ### Buffer memory (R40, R44, R45) -/

/-- What a byte of memory that is not listed reads as. DESIGN CHOICE (notes/assumptions/4.md), unsafe. -/
def unlistedByte : Byte := 0

/-- `MEM(addr)` (R40). -/
def Memory.read : Memory → Nat → Byte
  | [], _ => unlistedByte
  | (a, b) :: m, x => if x = a then b else Memory.read m x

/-- `v` at the head of a memory whose addresses all lie above `x`: listed only if it must be. -/
def Memory.cons (x : Nat) (v : Byte) (m : Memory) : Memory :=
  if v = unlistedByte then m else (x, v) :: m

/-- `MEM(addr) <- v`, one byte, keeping the canonical form. -/
def Memory.write : Memory → Nat → Byte → Memory
  | [], x, v => Memory.cons x v []
  | (a, b) :: m, x, v =>
    if x < a then Memory.cons x v ((a, b) :: m)
    else if x = a then Memory.cons x v m
    else (a, b) :: Memory.write m x v

/-- The canonical form, from address `lo` up: addresses rise strictly, each is below `2^64`, and no
entry equals what an unlisted address reads as. -/
def Memory.wfFrom : Nat → Memory → Bool
  | _, [] => true
  | lo, (a, b) :: m =>
    decide (lo ≤ a) && decide (a < Config.memSize) && decide (b ≠ unlistedByte) && Memory.wfFrom (a + 1) m

/-- The canonical form of a memory. -/
def Memory.wf (m : Memory) : Bool := Memory.wfFrom 0 m

/-- `MemRead(addr, n)`, in ascending address order (R44). -/
def memRead (m : Memory) (addr n : Nat) : List Byte :=
  (List.range n).map fun j => Memory.read m (addr + j)

/-- `MemWrite(addr, n, v)` for the `n`-byte list `v`: byte `j` to `addr + j` (R45). -/
def memWrite : Memory → Nat → List Byte → Memory
  | m, _, [] => m
  | m, addr, b :: bs => memWrite (Memory.write m addr b) (addr + 1) bs

/-! ### Admission and region checks (R50, R51, R59) -/

/-- A region of the platform's list admits this access. -/
def regionAdmits (r : Region) (addr : Nat) (kind : AccessKind) : Bool :=
  decide (r.base ≤ addr) && decide (addr < r.base + r.size) &&
    match kind with
    | .read => r.canRead
    | .write => r.canWrite

/-- `Admit(addr, kind)` (R50). -/
def admits (regions : List Region) (addr : Nat) (kind : AccessKind) : Bool :=
  regions.any fun r => regionAdmits r addr kind

/-- `NoWrap(a, n)` (R51). -/
def noWrap (a n : Nat) : Bool := decide (a + n ≤ Config.memSize)

/-- `Disjoint(a, b, n)` (R51). -/
def disjoint (a b n : Nat) : Bool := decide (a + n ≤ b) || decide (b + n ≤ a)

/-- `Admitted(a, n, kind)` (R51). -/
def admitted (regions : List Region) (a n : Nat) (kind : AccessKind) : Bool :=
  (List.range n).all fun j => admits regions (a + j) kind

/-- `BufCheck(SRC, DST, LEN)`: the first check of R59 that fails. -/
def bufCheck (regions : List Region) (src dst len : Nat) : Option Refusal :=
  if !noWrap src len || !noWrap dst len then some .addressWrap
  else if src != dst && !disjoint src dst len then some .bufferOverlap
  else if !admitted regions src len .read || !admitted regions dst len .write then
    some .memoryNotAdmitted
  else none

/-- `KeyCheck(KADDR)`: the first check of R59 that fails. -/
def keyCheck (regions : List Region) (kaddr : Nat) : Option Refusal :=
  if !noWrap kaddr Config.blockBytes then some .addressWrap
  else if !admitted regions kaddr Config.blockBytes .read then some .memoryNotAdmitted
  else none

/-! ### Registers -/

/-- `for j = 0 to 31: RK[j] <- rk[j]` (R103). -/
def writeRk (rk : Vector Word 32) (s : State) : State := { s with rk := rk }

/-- `CTXV <- v` (R23). -/
def setCtxv (v : Bool) (s : State) : State := { s with ctxv := v }

/-- Thirty-two free values, from the `n`-th on. Irreducible, since unfolding it shows nothing. -/
@[irreducible] def freeSubkeys (n : Nat) : Vector Word 32 := Vector.ofFn fun i => Config.freeWord (n + i.val)

/-- `RK` becomes unspecified (R24, R108, R166). -/
def freeRk (s : State) : State := { s with rk := freeSubkeys s.fresh, fresh := s.fresh + 32 }

/-- `W0`, `W1` and `RND` have been used by a command's rounds and are dead at its end: "Their value
between commands is unspecified" (R26, R27). -/
def freeWork (s : State) : State :=
  { s with
    w0 := Config.freeWord s.fresh
    w1 := Config.freeWord (s.fresh + 1)
    rnd := (Config.freeWord (s.fresh + 2)).setWidth 5
    fresh := s.fresh + 3 }

/-- `CHK` has been used by a buffer command and does not survive it (R27). -/
def freeChk (s : State) : State :=
  { s with chk := (Config.freeWord s.fresh).setWidth 60, fresh := s.fresh + 1 }

/-! ### Ports and events -/

/-- `respond(status, r0, r1)`: end the command and return the response packet (R15, R72). -/
def respond (status : Status) (r0 r1 : Word) (s : State) : Result :=
  .next { s with response := some (packResponse status r0 r1) }

/-- The engine accepts the packet at the head of the port: `rest` is what is still to come, and the
platform presents `grant` on `ALLOC_GRANT` while the command runs (R25, R60). -/
def accept (grant : Bool) (rest : List Input) (s : State) : State :=
  { s with inputs := rest, allocGrant := grant }

/-- The reset event: `CTXV <- 0`; `RK`, `W0`, `W1`, `RND`, `CHK` unspecified; no response pending; memory
neither read nor written (R166). -/
def resetEngine (s : State) : State :=
  { freeChk (freeWork (freeRk (setCtxv false s))) with response := none }

/-- Another agent writes one byte of buffer memory between commands (R53). -/
def hostWriteByte (addr : Word) (value : Byte) (s : State) : State :=
  { s with mem := Memory.write s.mem addr.toNat value }

/-- The platform changes its `Admit` between commands (R50). -/
def replaceAdmit (regions : List Region) (s : State) : State := { s with admission := regions }

/-- The `n` bytes from `addr` after a command was abandoned: each "holds either its old value or the
value the command would have written, with no promise which" (R167). Free value `k + j` chooses for
byte `j`; `done` is the memory the whole command would have left. -/
def mixBytes (done : Memory) : Nat → Nat → Nat → Memory → Memory
  | 0, _, _, m => m
  | n + 1, addr, k, m =>
    mixBytes done n (addr + 1) (k + 1)
      (if (Config.freeWord k).getLsbD 0 then Memory.write m addr (Memory.read done addr) else m)

/-- The region a command stores to: start and number of bytes; no other command stores (R41), and
none with a length that is no multiple of 16 (R127). -/
def storeRegion : Instr → Nat × Nat
  | .encbuf _ dst len => if len.toNat % Config.blockBytes = 0 then (dst.toNat, len.toNat) else (0, 0)
  | .decbuf _ dst len => if len.toNat % Config.blockBytes = 0 then (dst.toNat, len.toNat) else (0, 0)
  | .init _ _ _ => (0, 0)
  | .initb _ => (0, 0)
  | .encblk _ _ => (0, 0)
  | .decblk _ _ => (0, 0)
  | .finish => (0, 0)
  | .rndf _ _ _ => (0, 0)
  | .rndi _ _ _ => (0, 0)

/-- A reset in mid-command: `s` is the state in which `i` was accepted, `r` what the whole command
would have answered. The command is abandoned, "no response is returned", no context exists
afterwards, and the bytes of its `DST` region are old or new (R167). A command that `raise`s does so
before its first state write (R146), so it stops the run as it would without the reset. -/
def abandon (i : Instr) (s : State) (r : Result) : Result :=
  match r with
  | .next t =>
    let (addr, n) := storeRegion i
    .next (resetEngine
      { s with mem := mixBytes t.mem n addr s.fresh s.mem, fresh := s.fresh + n })
  | .fault f => .fault f
  | .refused f => .refused f

end Sys2Proof.Machine
end

