-- ==== Sys2Proof/Machine/Round.lean ====
section
/-! DEFINITION. The round transform, its inverse, and the commands `RNDF` and `RNDI`
(spec/40_round_transform.md). -/

namespace Sys2Proof.Machine

/-- `RoundF(x, y, k)`, the five steps in the spec's order (R86). -/
def roundF (x y k : Word) : Word × Word :=
  let x := rotr64 x Config.alpha
  let x := x + y
  let x := x ^^^ k
  let y := rotl64 y Config.beta
  let y := y ^^^ x
  (x, y)

/-- `RoundI(x, y, k)`, the five steps in the spec's order (R88). -/
def roundI (x y k : Word) : Word × Word :=
  let y := y ^^^ x
  let y := rotr64 y Config.beta
  let x := x ^^^ k
  let x := x - y
  let x := rotl64 x Config.alpha
  (x, y)

/-- `RNDF x, y, k` (R87): legal with or without a context. -/
def execRndf (x y k : Word) (s : State) : Result :=
  let (x', y') := roundF x y k
  respond .ok x' y' s

/-- `RNDI x, y, k` (R89): legal with or without a context. -/
def execRndi (x y k : Word) (s : State) : Result :=
  let (x', y') := roundI x y k
  respond .ok x' y' s

end Sys2Proof.Machine
end

