-- ==== Sys2Proof/Machine/Block.lean ====
section
/-! DEFINITION. The block engine: `ENCBLK`, `DECBLK` (spec/42_block_engine.md). -/

namespace Sys2Proof.Machine

/-- One encryption round on `(W0, W1)`: `(W1, W0) <- RoundF(W1, W0, k)`, word 1 in the x-role (R115). -/
def encRound (w : Word × Word) (k : Word) : Word × Word :=
  let (w1, w0) := roundF w.2 w.1 k
  (w0, w1)

/-- One decryption round on `(W0, W1)`: `(W1, W0) <- RoundI(W1, W0, k)` (R115). -/
def decRound (w : Word × Word) (k : Word) : Word × Word :=
  let (w1, w0) := roundI w.2 w.1 k
  (w0, w1)

/-- `EncBlock(rk, w0, w1)`: rounds `0 .. 31` (R116). -/
def encBlock (rk : Vector Word 32) (w0 w1 : Word) : Word × Word :=
  rk.toList.foldl encRound (w0, w1)

/-- `DecBlock(rk, w0, w1)`: rounds `31 .. 0` (R119). -/
def decBlock (rk : Vector Word 32) (w0 w1 : Word) : Word × Word :=
  rk.toList.reverse.foldl decRound (w0, w1)

/-- `ENCBLK w0, w1` (R117). -/
def execEncblk (p0 p1 : Word) (s : State) : Result :=
  if s.ctxv then
    let (c0, c1) := encBlock s.rk p0 p1
    respond .ok c0 c1 (freeWork s)
  else .fault .invalidContext

/-- `DECBLK w0, w1` (R120). -/
def execDecblk (c0 c1 : Word) (s : State) : Result :=
  if s.ctxv then
    let (p0, p1) := decBlock s.rk c0 c1
    respond .ok p0 p1 (freeWork s)
  else .fault .invalidContext

end Sys2Proof.Machine
end

