-- ==== Sys2Proof/Machine/Buffer.lean ====
section
/-! DEFINITION. The buffer engine: `ENCBUF`, `DECBUF` (spec/43_buffer_engine.md). -/

namespace Sys2Proof.Machine

/-- One chunk: all 16 bytes are read before any is written (R126, R48). -/
def processChunk (f : Word → Word → Word × Word) (src dst : Nat) (m : Memory) : Memory :=
  let (w0, w1) := blockFromBytes (memRead m src Config.blockBytes)
  memWrite m dst (bytesFromBlock (f w0 w1))

/-- `n` chunks in ascending order, from `src` and to `dst` (R126, R134). -/
def processChunks (f : Word → Word → Word × Word) : Nat → Nat → Nat → Memory → Memory
  | 0, _, _, m => m
  | n + 1, src, dst, m =>
    processChunks f n (src + Config.blockBytes) (dst + Config.blockBytes) (processChunk f src dst m)

/-- The buffer command of R126 and R130 over the block function `f` they differ in: context, length,
zero length and region checks in the order of R152, then the chunks. -/
def processBuffer (f : Vector Word 32 → Word → Word → Word × Word) (src dst len : Word) (s : State) :
    Result :=
  if !s.ctxv then .fault .invalidContext
  else if len.toNat % Config.blockBytes ≠ 0 then respond .invalidLength 0 0 s
  else if len.toNat / Config.blockBytes = 0 then respond .ok 0 0 s
  else
    match bufCheck s.admission src.toNat dst.toNat len.toNat with
    | some r => .refused r
    | none =>
      let m := processChunks (f s.rk) (len.toNat / Config.blockBytes) src.toNat dst.toNat s.mem
      respond .ok 0 0 (freeChk (freeWork { s with mem := m }))

/-- `ENCBUF src, dst, len` (R126). -/
def execEncbuf (src dst len : Word) (s : State) : Result := processBuffer encBlock src dst len s

/-- `DECBUF src, dst, len` (R130). -/
def execDecbuf (src dst len : Word) (s : State) : Result := processBuffer decBlock src dst len s

end Sys2Proof.Machine
end

