-- ==== Sys2Proof/Machine/Context.lean ====
section
/-! DEFINITION. The key schedule and the commands that create and destroy the context: `INIT`, `INITB`,
`FINISH` (spec/41_key_schedule_context.md). -/

namespace Sys2Proof.Machine

/-- The subkeys from index `i` on, `n` more after the one `W0` holds: each iteration is
`(W1, W0) <- RoundF(W1, W0, zext_64(i))` and records `W0` (R101). -/
def subkeysFrom : Nat → Nat → Word → Word → List Word
  | 0, _, w0, _ => [w0]
  | n + 1, i, w0, w1 =>
    let (w1', w0') := roundF w1 w0 (zext64 i)
    w0 :: subkeysFrom n (i + 1) w0' w1'

theorem subkeysFrom_length (n i : Nat) (w0 w1 : Word) : (subkeysFrom n i w0 w1).length = n + 1 := by
  induction n generalizing i w0 w1 with
  | zero => rfl
  | succ n ih => simp [subkeysFrom, ih]

/-- `KeyExpand(k0, k1)`: `W0` starts as `k0`, `W1` as `k1`, and there are 31 iterations (R101). -/
def keyExpand (k0 k1 : Word) : Vector Word 32 :=
  ⟨(subkeysFrom Config.keyRounds 0 k0 k1).toArray, by simp [subkeysFrom_length]⟩

/-- Construction of the context, shared by `INIT` and `INITB` (R103, R104, R105): it fails iff the slot is
taken or the allocator does not grant; else `RK` is zeroed, filled with the schedule, and `CTXV` set. -/
def construct (k0 k1 : Word) (s : State) : Result :=
  if s.ctxv || !s.allocGrant then respond .allocationFailure 0 0 s
  else
    respond .ok 0 0
      (setCtxv true (writeRk (keyExpand k0 k1) (freeWork (writeRk (Vector.replicate 32 0) s))))

/-- `INIT var, k0, k1` (R103). `VAR != 7` is a reserved encoding, not an error status (R66, R68). -/
def execInit (var : BitVec 4) (k0 k1 : Word) (s : State) : Result :=
  if var = Config.varCode then construct k0 k1 s else .fault .reservedEncoding

/-- `INITB kaddr` (R105): the key bytes are checked and read before allocation is tried (R152). -/
def execInitb (kaddr : Word) (s : State) : Result :=
  match keyCheck s.admission kaddr.toNat with
  | some r => .refused r
  | none =>
    let (k0, k1) := blockFromBytes (memRead s.mem kaddr.toNat Config.blockBytes)
    construct k0 k1 s

/-- `FINISH` (R108): `CTXV <- 0`, and `RK` is unspecified from here on; with `CTXV = 0` it changes
nothing. -/
def execFinish (s : State) : Result :=
  if s.ctxv then respond .ok 0 0 (freeRk (setCtxv false s)) else respond .ok 0 0 s

end Sys2Proof.Machine
end

