-- ==== Sys2Proof/Machine/Dispatch.lean ====
section
/-! DEFINITION. One arm per command, each a direct call of its meaning. -/

namespace Sys2Proof.Machine

def exec (i : Instr) (s : State) : Host.Outcome State Fault Refusal :=
  match i with
  | .init var k0 k1 => Sys2Proof.Machine.execInit var k0 k1 s
  | .initb kaddr => Sys2Proof.Machine.execInitb kaddr s
  | .encblk p0 p1 => Sys2Proof.Machine.execEncblk p0 p1 s
  | .decblk c0 c1 => Sys2Proof.Machine.execDecblk c0 c1 s
  | .encbuf src dst len => Sys2Proof.Machine.execEncbuf src dst len s
  | .decbuf src dst len => Sys2Proof.Machine.execDecbuf src dst len s
  | .finish => Sys2Proof.Machine.execFinish s
  | .rndf x y k => Sys2Proof.Machine.execRndf x y k s
  | .rndi x y k => Sys2Proof.Machine.execRndi x y k s

end Sys2Proof.Machine
end

