-- ==== Sys2Proof/Machine/Step.lean ====
section
/-! DEFINITION. One step: the next event at the engine's inputs (spec/30_encoding.md R60,
spec/70_reset_and_hazards.md R166, R167). A command is one atomic step (spec/00_scope.md R19). -/

namespace Sys2Proof.Machine

/-- One step. With nothing at the inputs the engine "is simply idle, holding `CTXV` and `RK`" (R157). A
packet that matches no opcode row ends in the fault `ReservedEncoding` (R66). -/
def step (s : State) : Host.Outcome State Fault Refusal :=
  match s.inputs with
  | [] => .next s
  | .command p grant :: rest =>
    match decode p with
    | some i => exec i (accept grant rest s)
    | none => .fault .reservedEncoding
  | .abandoned p grant :: rest =>
    match decode p with
    | some i => abandon i (accept grant rest s) (exec i (accept grant rest s))
    | none => .fault .reservedEncoding
  | .reset :: rest => .next (resetEngine { s with inputs := rest })
  | .hostWrite addr value :: rest => .next (hostWriteByte addr value { s with inputs := rest })
  | .setAdmit regions :: rest => .next (replaceAdmit regions { s with inputs := rest })

/-- `s` with that packet next at the command port, `ALLOC_GRANT` as it stands: there is no program
counter and nothing is fetched (R28, R56), so presenting the packet is all it takes. -/
def State.withFetchWord (s : State) (nbits w : Nat) : State :=
  { s with inputs := .command (tablePacket nbits w) s.allocGrant :: s.inputs }

end Sys2Proof.Machine
end

