-- ==== Sys2Proof/Safety.lean ====
section
/-! DEFINITION. The terms claims use: what an instruction leaves unchanged, when a command executes,
the order of the tests (spec/60_exceptions.md R152), the invariant of the state, and what a host can see. -/

namespace Sys2Proof.Machine

/-! ### Frames -/

/-- The persistent engine state `{ CTXV, RK }` (R20) is the same in `t` as in `s`. -/
structure KeepsContext (s t : State) : Prop where
  ctxv : t.ctxv = s.ctxv
  rk : t.rk = s.rk

/-- Every byte of buffer memory reads the same in `t` as in `s`. -/
def KeepsMemory (s t : State) : Prop := ∀ a : Nat, Memory.read t.mem a = Memory.read s.mem a

/-- Every byte of buffer memory outside the `n` bytes from `addr` reads the same in `t` as in `s`. -/
def KeepsMemoryOutside (addr n : Nat) (s t : State) : Prop :=
  ∀ a : Nat, a < addr ∨ addr + n ≤ a → Memory.read t.mem a = Memory.read s.mem a

/-- What is not the engine's to change: the open inputs and what is still to come at the port. -/
structure KeepsInputs (s t : State) : Prop where
  inputs : t.inputs = s.inputs
  allocGrant : t.allocGrant = s.allocGrant
  admission : t.admission = s.admission

/-- The transient registers `W0`, `W1`, `RND`, `CHK` are the same in `t` as in `s`. -/
structure KeepsTransient (s t : State) : Prop where
  w0 : t.w0 = s.w0
  w1 : t.w1 = s.w1
  rnd : t.rnd = s.rnd
  chk : t.chk = s.chk

/-! ### When a command executes -/

/-- The host's duties on the regions of a buffer command (R175, R59), written without the model's checks. -/
structure RegionsLegal (s : State) (src dst len : Nat) : Prop where
  srcFits : src + len ≤ 2 ^ 64
  dstFits : dst + len ≤ 2 ^ 64
  sameOrDisjoint : src = dst ∨ src + len ≤ dst ∨ dst + len ≤ src
  canRead : ∀ j < len, admits s.admission (src + j) .read = true
  canWrite : ∀ j < len, admits s.admission (dst + j) .write = true

/-- The host's duties on the key region of `INITB` (R59). -/
structure KeyRegionLegal (s : State) (kaddr : Nat) : Prop where
  fits : kaddr + 16 ≤ 2 ^ 64
  canRead : ∀ j < 16, admits s.admission (kaddr + j) .read = true

/-- The duties of R168 and R175 under which a command ends in a response. -/
def Executable (i : Instr) (s : State) : Prop :=
  match i with
  | .init var _ _ => var = 7
  | .initb kaddr => KeyRegionLegal s kaddr.toNat
  | .encblk _ _ => s.ctxv = true
  | .decblk _ _ => s.ctxv = true
  | .encbuf src dst len =>
    s.ctxv = true ∧
      (len.toNat % 16 = 0 → len.toNat ≠ 0 → RegionsLegal s src.toNat dst.toNat len.toNat)
  | .decbuf src dst len =>
    s.ctxv = true ∧
      (len.toNat % 16 = 0 → len.toNat ≠ 0 → RegionsLegal s src.toNat dst.toNat len.toNat)
  | .finish => True
  | .rndf _ _ _ => True
  | .rndi _ _ _ => True

/-! ### How a command ends -/

/-- The endings of R140 with the names of R141 and R146. -/
inductive Ending where
  | status (status : Status)
  | fault (fault : Fault)
  | refused (refusal : Refusal)
  deriving DecidableEq, Repr

/-- A result of the machine ends so: a next state whose response carries that status, or that fault
or refusal. -/
def EndsIn (r : Result) : Ending → Prop
  | .status st => ∃ t r0 r1, r = .next t ∧ t.response = some (packResponse st r0 r1)
  | .fault f => r = .fault f
  | .refused f => r = .refused f

/-- The command is one of those whose row 2 of R152 tests the context. -/
def needsContext : Instr → Bool
  | .encblk _ _ => true
  | .decblk _ _ => true
  | .encbuf _ _ _ => true
  | .decbuf _ _ _ => true
  | .init _ _ _ => false
  | .initb _ => false
  | .finish => false
  | .rndf _ _ _ => false
  | .rndi _ _ _ => false

/-- The command constructs a context (row 8 of R152). -/
def constructs : Instr → Bool
  | .init _ _ _ => true
  | .initb _ => true
  | .encblk _ _ => false
  | .decblk _ _ => false
  | .encbuf _ _ _ => false
  | .decbuf _ _ _ => false
  | .finish => false
  | .rndf _ _ _ => false
  | .rndi _ _ _ => false

/-- The operands `SRC, DST, LEN` of a buffer command. -/
def bufferOperands : Instr → Option (Nat × Nat × Nat)
  | .encbuf src dst len => some (src.toNat, dst.toNat, len.toNat)
  | .decbuf src dst len => some (src.toNat, dst.toNat, len.toNat)
  | .init _ _ _ => none
  | .initb _ => none
  | .encblk _ _ => none
  | .decblk _ _ => none
  | .finish => none
  | .rndf _ _ _ => none
  | .rndi _ _ _ => none

/-- The commands that "neither write state nor touch memory" (R156). -/
def holdsState : Instr → Bool
  | .encblk _ _ => true
  | .decblk _ _ => true
  | .rndf _ _ _ => true
  | .rndi _ _ _ => true
  | .init _ _ _ => false
  | .initb _ => false
  | .encbuf _ _ _ => false
  | .decbuf _ _ _ => false
  | .finish => false

/-- The regions a command accesses, start and length, each with its kind (R41). -/
def regionsOf : Instr → List (Nat × Nat × AccessKind)
  | .initb kaddr => [(kaddr.toNat, 16, .read)]
  | .encbuf src dst len => [(src.toNat, len.toNat, .read), (dst.toNat, len.toNat, .write)]
  | .decbuf src dst len => [(src.toNat, len.toNat, .read), (dst.toNat, len.toNat, .write)]
  | .init _ _ _ => []
  | .encblk _ _ => []
  | .decblk _ _ => []
  | .finish => []
  | .rndf _ _ _ => []
  | .rndi _ _ _ => []

/-- Row 3 of R152: `LEN mod 16 != 0`. -/
def BadLength (i : Instr) : Prop := ∃ src dst len, bufferOperands i = some (src, dst, len) ∧ len % 16 ≠ 0

/-- Row 4 of R152: `LEN = 0`. -/
def ZeroLength (i : Instr) : Prop := ∃ src dst, bufferOperands i = some (src, dst, 0)

/-- Row 5 of R152: a region wraps. -/
def RegionWraps (i : Instr) : Prop := ∃ a n k, (a, n, k) ∈ regionsOf i ∧ 2 ^ 64 < a + n

/-- Row 6 of R152: the two regions of a buffer command differ and share a byte. -/
def PartlyOverlaps (i : Instr) : Prop :=
  ∃ src dst len, bufferOperands i = some (src, dst, len) ∧ src ≠ dst ∧
    ∃ x, (src ≤ x ∧ x < src + len) ∧ dst ≤ x ∧ x < dst + len

/-- Row 7 of R152: a byte of a region is not admitted. -/
def ByteNotAdmitted (i : Instr) (s : State) : Prop :=
  ∃ a n k, (a, n, k) ∈ regionsOf i ∧ ∃ j < n, admits s.admission (a + j) k = false

/-- Row 8 of R152: the slot is taken or the allocator does not grant. -/
def AllocationFails (i : Instr) (s : State) : Prop :=
  constructs i = true ∧ (s.ctxv = true ∨ s.allocGrant = false)

/-- Rows 2 to 9 of R152 in their order: the one ending reported for the command `i` in the state `s`. -/
def FirstEnding (i : Instr) (s : State) (e : Ending) : Prop :=
  (needsContext i = true ∧ s.ctxv = false → e = .fault .invalidContext) ∧
  (¬ (needsContext i = true ∧ s.ctxv = false) →
    (BadLength i → e = .status .invalidLength) ∧
    (¬ BadLength i →
      (ZeroLength i → e = .status .ok) ∧
      (¬ ZeroLength i →
        (RegionWraps i → e = .refused .addressWrap) ∧
        (¬ RegionWraps i →
          (PartlyOverlaps i → e = .refused .bufferOverlap) ∧
          (¬ PartlyOverlaps i →
            (ByteNotAdmitted i s → e = .refused .memoryNotAdmitted) ∧
            (¬ ByteNotAdmitted i s →
              (AllocationFails i s → e = .status .allocationFailure) ∧
              (¬ AllocationFails i s → e = .status .ok)))))))

/-! ### The invariant and what a host can see -/

/-- A response packet the engine can return: bits 63:8 zero and one of the three statuses (R72, R73). -/
def ResponseLegal (p : ResponsePacket) : Prop :=
  responseZero p = 0 ∧ (responseStatus p = 0 ∨ responseStatus p = 1 ∨ responseStatus p = 2)

/-- The invariant: memory in its canonical form; with a context, `RK` is the schedule of some key
(R24); a response on the port is a legal packet (R72, R73). -/
structure Inv (s : State) : Prop where
  memory : Memory.wf s.mem = true
  schedule : s.ctxv = true → ∃ k0 k1, s.rk = keyExpand k0 k1
  response : ∀ p, s.response = some p → ResponseLegal p

/-- Two states that no host can tell apart: they may differ in the transient registers, in the free
values still to come and, with no context, in `RK`; in nothing else (R24, R26, R27). -/
structure SameVisible (s t : State) : Prop where
  ctxv : s.ctxv = t.ctxv
  rk : s.ctxv = true → s.rk = t.rk
  mem : s.mem = t.mem
  response : s.response = t.response
  inputs : s.inputs = t.inputs
  allocGrant : s.allocGrant = t.allocGrant
  admission : s.admission = t.admission

/-- Two results that no host can tell apart. -/
def SameVisibleResult : Result → Result → Prop
  | .next s, .next t => SameVisible s t
  | .fault f, .fault g => f = g
  | .refused f, .refused g => f = g
  | _, _ => False

end Sys2Proof.Machine
end

