-- ==== Sys2Proof/Certificates/Slice0/Obligations.lean ====
section
/-! DEFINITION. The statements for the provers. Each docstring names the rules of spec/ it formalises; where a
clause rests on a choice of the model, it names the assumption log's entry. -/

open Sys2Proof Sys2Proof.Machine

/-! ### Encoding -/

/-- R77: `Decode(Encode(c)) = c` for every command, with every operand at every value. -/
def Obligations.DecodeEncodeEveryCommand : Prop :=
  ∀ i : Instr, i.wellFormed = true → decode (encode i) = some i

/-- R77: `Encode(Decode(p)) = p` for every packet that is not `Reserved`: no bit of a packet is ignored. -/
def Obligations.EncodeDecodeEveryPacket : Prop :=
  ∀ (p : Packet) (i : Instr), decode p = some i → encode i = p

/-- R66, R63: the reserved encodings are exactly a reserved `OP`, a nonzero `RSV`, a wrong `VAR`, a nonzero
unused operand; each ends the command in the fault `ReservedEncoding`, whatever the state. -/
def Obligations.ReservedEncodingsFault : Prop :=
  ∀ p : Packet,
    (decode p = none ↔
      (fieldOp p = 0x00 ∨ 0x0A ≤ (fieldOp p).toNat) ∨
      fieldRsv p ≠ 0 ∨
      (fieldOp p = 0x01 ∧ fieldVar p ≠ 7) ∨
      (fieldOp p ≠ 0x01 ∧ fieldVar p ≠ 0) ∨
      ((fieldOp p = 0x01 ∨ fieldOp p = 0x03 ∨ fieldOp p = 0x04) ∧ fieldC p ≠ 0) ∨
      (fieldOp p = 0x02 ∧ (fieldB p ≠ 0 ∨ fieldC p ≠ 0)) ∨
      (fieldOp p = 0x07 ∧ (fieldA p ≠ 0 ∨ fieldB p ≠ 0 ∨ fieldC p ≠ 0))) ∧
    (decode p = none → ∀ (s : State) (grant : Bool) (rest : List Input),
      s.inputs = .command p grant :: rest → step s = .fault .reservedEncoding)

/-- R65: "The nine rows differ in `OP`, so at most one matches." -/
def Obligations.AtMostOneRowMatches : Prop :=
  ∀ (p : Packet) (r r' : OpcodeRow), r ∈ opcodeRows → r' ∈ opcodeRows →
    rowMatches p r = true → rowMatches p r' = true → r = r'

/-- R78 and V40: packets written out from the field table of R61. -/
def Obligations.WrittenPacketsDecode : Prop :=
  decode 0x0000000000000000_0f0e0d0c0b0a0908_0706050403020100_0000000000000701 =
    some (.init 7 0x0706050403020100 0x0f0e0d0c0b0a0908) ∧
  decode 0x0000000000000000_0000000000000000_0000000000001000_0000000000000002 =
    some (.initb 0x1000) ∧
  decode 0x0000000000000000_6c61766975716520_7469206564616d20_0000000000000003 =
    some (.encblk 0x7469206564616d20 0x6c61766975716520) ∧
  decode 0x0000000000000020_0000000000003000_0000000000002000_0000000000000005 =
    some (.encbuf 0x2000 0x3000 32) ∧
  decode 0x0000000000000000_0000000000000000_0000000000000000_0000000000000007 = some .finish ∧
  decode 0x0000000000000003_0000000000000002_0000000000000001_0000000000000008 =
    some (.rndf 1 2 3)

/-- R72: `respond` ends the command in a next state that holds the response packet, whose four fields are the
table's. With it the three status codes of R73. -/
def Obligations.ResponsePacketLayout : Prop :=
  (∀ (st : Status) (r0 r1 : Word) (s : State),
    ∃ t, respond st r0 r1 s = .next t ∧ t.response = some (packResponse st r0 r1)) ∧
  (∀ (st : Status) (r0 r1 : Word),
    responseStatus (packResponse st r0 r1) = statusCode st ∧
    responseZero (packResponse st r0 r1) = 0 ∧
    responseR0 (packResponse st r0 r1) = r0 ∧
    responseR1 (packResponse st r0 r1) = r1) ∧
  statusCode .ok = 0x00 ∧ statusCode .invalidLength = 0x01 ∧ statusCode .allocationFailure = 0x02

/-! ### The port and the events -/

/-- R60, R77: a packet at the port that decodes to `i` is run as `exec i`; the step around it takes the packet
off the port and shows the command its `ALLOC_GRANT` (R25). -/
def Obligations.StepRunsDecodedCommand : Prop :=
  ∀ (s : State) (p : Packet) (grant : Bool) (rest : List Input) (i : Instr),
    s.inputs = .command p grant :: rest → decode p = some i →
      step s = exec i { s with inputs := rest, allocGrant := grant }

/-- R157: with nothing at the port the engine is idle and holds its state. The step that does nothing
stands for waiting: assumption log entry 6. -/
def Obligations.IdleEngineHoldsState : Prop :=
  ∀ s : State, s.inputs = [] → step s = .next s

/-- R166: the reset event clears `CTXV`, leaves no response pending, and neither reads nor writes memory.
(`RK` and the transient registers become free values: see `UnspecifiedStateIsUnobservable`.) -/
def Obligations.ResetEventEndsContext : Prop :=
  ∀ (s : State) (rest : List Input), s.inputs = .reset :: rest →
    ∃ t, step s = .next t ∧ t.ctxv = false ∧ t.response = none ∧ KeepsMemory s t ∧
      t.inputs = rest ∧ t.allocGrant = s.allocGrant ∧ t.admission = s.admission

/-- R167: a command abandoned by a reset returns no response, leaves no context, and each byte of memory holds
its old value or the value the command would have written; bytes outside its output region are unchanged. That
a reset in flight is modelled at all is the model's choice: assumption log entry 5. -/
def Obligations.AbandonedCommandLeavesOldOrNew : Prop :=
  ∀ (s : State) (p : Packet) (grant : Bool) (rest : List Input) (i : Instr) (t : State),
    Memory.wf s.mem = true → s.inputs = .abandoned p grant :: rest → decode p = some i →
    exec i { s with inputs := rest, allocGrant := grant } = .next t →
      ∃ u, step s = .next u ∧ u.ctxv = false ∧ u.response = none ∧ u.inputs = rest ∧ u.admission = s.admission ∧
        (∀ a, Memory.read u.mem a = Memory.read s.mem a ∨ Memory.read u.mem a = Memory.read t.mem a) ∧
        (bufferOperands i = none → KeepsMemory s u) ∧
        (∀ src dst len, bufferOperands i = some (src, dst, len) → KeepsMemoryOutside dst len s u)

/-- R49, R53: a byte written by another agent between commands reads as written, and every other byte as
before; nothing else changes. That hosts write memory as an event is assumption log
entry 6; that the transient registers keep their values over it, entry 1. -/
def Obligations.HostWriteChangesOneByte : Prop :=
  ∀ (s : State) (x : Word) (v : Byte) (rest : List Input), Memory.wf s.mem = true →
    s.inputs = .hostWrite x v :: rest →
      ∃ t, step s = .next t ∧ KeepsContext s t ∧ KeepsTransient s t ∧ t.response = s.response ∧
        t.inputs = rest ∧ t.allocGrant = s.allocGrant ∧ t.admission = s.admission ∧
        Memory.read t.mem x.toNat = v ∧
        ∀ a, a ≠ x.toNat → Memory.read t.mem a = Memory.read s.mem a

/-- R50: the platform may change its `Admit` between commands, and nothing else changes with it. That it does
so by an event is assumption log entry 6; that the transient registers keep their values over it, entry 1. -/
def Obligations.SetAdmitReplacesAdmission : Prop :=
  ∀ (s : State) (regions : List Region) (rest : List Input), s.inputs = .setAdmit regions :: rest →
    ∃ t, step s = .next t ∧ t.admission = regions ∧ KeepsContext s t ∧ KeepsTransient s t ∧ KeepsMemory s t ∧
      t.response = s.response ∧ t.inputs = rest ∧ t.allocGrant = s.allocGrant

/-! ### The round transform -/

/-- R90: `RoundI` undoes `RoundF` with the same `k`, and `RoundF` undoes `RoundI`. -/
def Obligations.RoundTransformInvertible : Prop :=
  (∀ x y k : Word, roundI (roundF x y k).1 (roundF x y k).2 k = (x, y)) ∧
  (∀ x y k : Word, roundF (roundI x y k).1 (roundI x y k).2 k = (x, y))

/-- R92: the bit maps of the four rotations. -/
def Obligations.RotationBitMaps : Prop :=
  ∀ (v : Word) (i : Nat), i < 64 →
    (rotr64 v 8).getLsbD i = v.getLsbD ((i + 8) % 64) ∧
    (rotl64 v 3).getLsbD i = v.getLsbD ((i + 61) % 64) ∧
    (rotr64 v 3).getLsbD i = v.getLsbD ((i + 3) % 64) ∧
    (rotl64 v 8).getLsbD i = v.getLsbD ((i + 56) % 64)

/-- R87, R86: `RNDF` answers the forward step of its operands; `CTXV`, `RK`, memory and the inputs are as before.
(The transient registers: `TransientRegistersChangeOnlyWhereUsed`.) -/
def Obligations.RndfAnswersForwardStep : Prop :=
  ∀ (s : State) (x y k : Word),
    decode (lanes k y x 0x08) = some (.rndf x y k) ∧
    ∃ t, exec (.rndf x y k) s = .next t ∧
      t.response = some (packResponse .ok
        ((rotr64 x 8 + y) ^^^ k) (rotl64 y 3 ^^^ ((rotr64 x 8 + y) ^^^ k))) ∧
      KeepsContext s t ∧ KeepsMemory s t ∧ KeepsInputs s t

/-- R89, R88: `RNDI` answers the inverse step of its operands; `CTXV`, `RK`, memory and the inputs are as before.
(The transient registers: `TransientRegistersChangeOnlyWhereUsed`.) -/
def Obligations.RndiAnswersInverseStep : Prop :=
  ∀ (s : State) (x y k : Word),
    decode (lanes k y x 0x09) = some (.rndi x y k) ∧
    ∃ t, exec (.rndi x y k) s = .next t ∧
      t.response = some (packResponse .ok
        (rotl64 ((x ^^^ k) - rotr64 (y ^^^ x) 3) 8) (rotr64 (y ^^^ x) 3)) ∧
      KeepsContext s t ∧ KeepsMemory s t ∧ KeepsInputs s t

/-- R176: at the port, `RNDI` on the two results of an `RNDF`, with the same `k`, answers the operands. -/
def Obligations.RndiUndoesRndfAtPort : Prop :=
  ∀ (s : State) (x y k : Word), ∃ t p,
    exec (.rndf x y k) s = .next t ∧ t.response = some p ∧
    ∃ u q, exec (.rndi (responseR0 p) (responseR1 p) k) t = .next u ∧ u.response = some q ∧
      responseR0 q = x ∧ responseR1 q = y

/-! ### The key schedule and the context -/

/-- R101: `KeyExpand` as its recurrences: the pair starts as `(k1, k0)`, iteration `i` has the round Word `i`,
and `RK[i]` is the pair's second word after `i` iterations. -/
def Obligations.KeyExpandFollowsRecurrence : Prop :=
  ∀ k0 k1 : Word, ∃ a b : Nat → Word,
    a 0 = k1 ∧ b 0 = k0 ∧
    (∀ i < 31,
      a (i + 1) = ((rotr64 (a i) 8 + b i) ^^^ BitVec.ofNat 64 i) ∧
      b (i + 1) = (rotl64 (b i) 3 ^^^ a (i + 1))) ∧
    ∀ i : Fin 32, (keyExpand k0 k1)[i] = b i

/-- R177: the schedule determines the key. -/
def Obligations.KeyExpandDeterminesKey : Prop :=
  ∀ k0 k1 j0 j1 : Word, keyExpand k0 k1 = keyExpand j0 j1 → k0 = j0 ∧ k1 = j1

/-- R103, R104: `INIT` with its encoding, its failure, its success and its frame. (The transient
registers: `TransientRegistersChangeOnlyWhereUsed`.) -/
def Obligations.InitConstructsContext : Prop :=
  ∀ (s : State) (k0 k1 : Word),
    decode (lanes 0 k1 k0 0x0701) = some (.init 7 k0 k1) ∧
    (∀ var : BitVec 4, var ≠ 7 → exec (.init var k0 k1) s = .fault .reservedEncoding) ∧
    (s.ctxv = true ∨ s.allocGrant = false → ∃ t, exec (.init 7 k0 k1) s = .next t ∧
      t.response = some (packResponse .allocationFailure 0 0) ∧
      KeepsContext s t ∧ KeepsMemory s t ∧ KeepsInputs s t) ∧
    (s.ctxv = false → s.allocGrant = true → ∃ t, exec (.init 7 k0 k1) s = .next t ∧
      t.response = some (packResponse .ok 0 0) ∧
      t.ctxv = true ∧ t.rk = keyExpand k0 k1 ∧ KeepsMemory s t ∧ KeepsInputs s t)

/-- R104: construction answers `ALLOCATION_FAILURE` exactly when the slot is taken or the allocator does not
grant, and then `CTXV`, `RK` and memory keep their values. -/
def Obligations.AllocationFailsExactlyWhenNotGranted : Prop :=
  ∀ (i : Instr) (s t : State), constructs i = true → exec i s = .next t →
    (t.response = some (packResponse .allocationFailure 0 0) ↔ s.ctxv = true ∨ s.allocGrant = false) ∧
    (s.ctxv = true ∨ s.allocGrant = false → KeepsContext s t ∧ KeepsMemory s t) ∧
    (s.ctxv = false → s.allocGrant = true → t.ctxv = true ∧ t.response = some (packResponse .ok 0 0))

/-- R105: `INITB` with its encoding, its two refusals in their order, its failure, its success and its frame.
The key words are the 16 bytes at `KADDR`, each word little-endian, word 0 first (R42, R43).
(The transient registers: `TransientRegistersChangeOnlyWhereUsed`.) -/
def Obligations.InitbConstructsContextFromMemory : Prop :=
  ∀ (s : State) (kaddr : Word),
    decode (lanes 0 0 kaddr 0x02) = some (.initb kaddr) ∧
    (2 ^ 64 < kaddr.toNat + 16 → exec (.initb kaddr) s = .refused .addressWrap) ∧
    (kaddr.toNat + 16 ≤ 2 ^ 64 → (∃ j < 16, admits s.admission (kaddr.toNat + j) .read = false) →
      exec (.initb kaddr) s = .refused .memoryNotAdmitted) ∧
    (KeyRegionLegal s kaddr.toNat → s.ctxv = true ∨ s.allocGrant = false →
      ∃ t, exec (.initb kaddr) s = .next t ∧
        t.response = some (packResponse .allocationFailure 0 0) ∧
        KeepsContext s t ∧ KeepsMemory s t ∧ KeepsInputs s t) ∧
    (KeyRegionLegal s kaddr.toNat → s.ctxv = false → s.allocGrant = true →
      ∃ t, exec (.initb kaddr) s = .next t ∧
        t.response = some (packResponse .ok 0 0) ∧ t.ctxv = true ∧
        t.rk = keyExpand (le64 (memRead s.mem kaddr.toNat 8)) (le64 (memRead s.mem (kaddr.toNat + 8) 8)) ∧
        KeepsMemory s t ∧ KeepsInputs s t)

/-- R106: `INITB` equals `INIT` on the two Words in memory whenever `KeyCheck` passes. -/
def Obligations.InitbEqualsInitOnMemoryWords : Prop :=
  ∀ (s : State) (kaddr : Word), KeyRegionLegal s kaddr.toNat →
    exec (.initb kaddr) s =
      exec (.init 7 (le64 (memRead s.mem kaddr.toNat 8)) (le64 (memRead s.mem (kaddr.toNat + 8) 8))) s

/-- R108: `FINISH` clears `CTXV` and answers `OK`; with no context `RK` is as before; with one it
becomes unspecified. (The transient registers: `TransientRegistersChangeOnlyWhereUsed`.) -/
def Obligations.FinishDestroysContext : Prop :=
  ∀ s : State,
    decode (lanes 0 0 0 0x07) = some .finish ∧
    ∃ t, exec .finish s = .next t ∧ t.response = some (packResponse .ok 0 0) ∧
      t.ctxv = false ∧ (s.ctxv = false → t.rk = s.rk) ∧
      KeepsMemory s t ∧ KeepsInputs s t

/-- R109, R23: the lifecycle table: what every command that answers makes of `CTXV`. -/
def Obligations.LifecycleOfContextBit : Prop :=
  ∀ (i : Instr) (s t : State), exec i s = .next t →
    t.ctxv =
      if constructs i then s.ctxv || s.allocGrant
      else if i = .finish then false
      else s.ctxv

/-- R26, R27: the transient registers are written by the commands that use them: those that run no round leave all
four, and only `ENCBUF` and `DECBUF` use `CHK`. That a command which does not use them leaves their values is
the model's reading (R26 calls the values between commands unspecified): assumption log entry 1. -/
def Obligations.TransientRegistersChangeOnlyWhereUsed : Prop :=
  ∀ (i : Instr) (s t : State), exec i s = .next t →
    (i = .finish ∨ (∃ x y k, i = .rndf x y k ∨ i = .rndi x y k) → KeepsTransient s t) ∧
    (constructs i = true → s.ctxv = true ∨ s.allocGrant = false → KeepsTransient s t) ∧
    (BadLength i ∨ ZeroLength i → KeepsTransient s t) ∧
    (bufferOperands i = none → t.chk = s.chk)

/-- R22, R110: `RK` is written only by a construction that succeeds; `FINISH` releases it; between the two no
command changes it. -/
def Obligations.SubkeysImmutableWhileContextLives : Prop :=
  ∀ (i : Instr) (s t : State), exec i s = .next t → t.rk ≠ s.rk →
    (constructs i = true ∧ s.ctxv = false ∧ s.allocGrant = true ∧ t.ctxv = true) ∨
    (i = .finish ∧ s.ctxv = true ∧ t.ctxv = false)

/-! ### The block engine -/

/-- R116, R115: the 32 encryption rounds, word 1 in the x-role, subkey `i` in round `i`. -/
def Obligations.EncBlockRunsThirtyTwoRounds : Prop :=
  ∀ (rk : Vector Word 32) (w0 w1 : Word), ∃ a b : Nat → Word,
    a 0 = w0 ∧ b 0 = w1 ∧
    (∀ i : Fin 32,
      b (i + 1) = ((rotr64 (b i) 8 + a i) ^^^ rk[i]) ∧
      a (i + 1) = (rotl64 (a i) 3 ^^^ b (i + 1))) ∧
    encBlock rk w0 w1 = (a 32, b 32)

/-- R119, R115: the 32 decryption rounds, from round 31 down to round 0. -/
def Obligations.DecBlockRunsThirtyTwoRounds : Prop :=
  ∀ (rk : Vector Word 32) (w0 w1 : Word), ∃ a b : Nat → Word,
    a 32 = w0 ∧ b 32 = w1 ∧
    (∀ i : Fin 32,
      a i = rotr64 (a (i + 1) ^^^ b (i + 1)) 3 ∧
      b i = rotl64 ((b (i + 1) ^^^ rk[i]) - a i) 8) ∧
    decBlock rk w0 w1 = (a 0, b 0)

/-- R117: `ENCBLK` with its encoding, its fault with no context, its answer and its frame. (The transient
registers: `TransientRegistersChangeOnlyWhereUsed`.) -/
def Obligations.EncblkAnswersCiphertext : Prop :=
  ∀ (s : State) (p0 p1 : Word),
    decode (lanes 0 p1 p0 0x03) = some (.encblk p0 p1) ∧
    (s.ctxv = false → exec (.encblk p0 p1) s = .fault .invalidContext) ∧
    (s.ctxv = true → ∃ t, exec (.encblk p0 p1) s = .next t ∧
      t.response = some (packResponse .ok (encBlock s.rk p0 p1).1 (encBlock s.rk p0 p1).2) ∧
      KeepsContext s t ∧ KeepsMemory s t ∧ KeepsInputs s t)

/-- R120: `DECBLK` with its encoding, its fault with no context, its answer and its frame. (The transient
registers: `TransientRegistersChangeOnlyWhereUsed`.) -/
def Obligations.DecblkAnswersPlaintext : Prop :=
  ∀ (s : State) (c0 c1 : Word),
    decode (lanes 0 c1 c0 0x04) = some (.decblk c0 c1) ∧
    (s.ctxv = false → exec (.decblk c0 c1) s = .fault .invalidContext) ∧
    (s.ctxv = true → ∃ t, exec (.decblk c0 c1) s = .next t ∧
      t.response = some (packResponse .ok (decBlock s.rk c0 c1).1 (decBlock s.rk c0 c1).2) ∧
      KeepsContext s t ∧ KeepsMemory s t ∧ KeepsInputs s t)

/-- R121: decryption undoes encryption under any 32 Words, and encryption undoes decryption. -/
def Obligations.BlockRoundTrip : Prop :=
  ∀ (rk : Vector Word 32) (w0 w1 : Word),
    decBlock rk (encBlock rk w0 w1).1 (encBlock rk w0 w1).2 = (w0, w1) ∧
    encBlock rk (decBlock rk w0 w1).1 (decBlock rk w0 w1).2 = (w0, w1)

/-- R176, R121: at the port, `DECBLK` on the two result words of an `ENCBLK` answers the plaintext. -/
def Obligations.DecblkUndoesEncblkAtPort : Prop :=
  ∀ (s : State) (p0 p1 : Word), s.ctxv = true → ∃ t p,
    exec (.encblk p0 p1) s = .next t ∧ t.response = some p ∧
    ∃ u q, exec (.decblk (responseR0 p) (responseR1 p)) t = .next u ∧ u.response = some q ∧
      responseR0 q = p0 ∧ responseR1 q = p1

/-- R147: a block or buffer command with no context is the fault `InvalidContext`, whatever its operands: the
test comes before the length test and every memory check. -/
def Obligations.NoContextIsInvalidContext : Prop :=
  ∀ (i : Instr) (s : State), needsContext i = true → s.ctxv = false → exec i s = .fault .invalidContext

/-- R156: commands of several hosts that "neither write state nor touch memory" may be accepted in either
order: each answers the same response, and the context and memory are the same. -/
def Obligations.StatelessCommandsCommute : Prop :=
  ∀ (i j : Instr) (s t u t' u' : State), holdsState i = true → holdsState j = true →
    exec i s = .next t → exec j t = .next u → exec j s = .next t' → exec i t' = .next u' →
      t.response = u'.response ∧ t'.response = u.response ∧
      KeepsContext s u ∧ KeepsContext s u' ∧ KeepsMemory s u ∧ KeepsMemory s u'

/-! ### Buffer memory and the buffer engine -/

/-- R45: `MemWrite` sets byte `j` of its region to element `j` of its list and changes no other location. -/
def Obligations.MemWriteSetsItsBytesOnly : Prop :=
  ∀ (m : Memory) (addr : Nat) (bs : List Byte), Memory.wf m = true → addr + bs.length ≤ 2 ^ 64 →
    (∀ (j : Nat) (h : j < bs.length), Memory.read (memWrite m addr bs) (addr + j) = bs[j]) ∧
    ∀ a, a < addr ∨ addr + bs.length ≤ a → Memory.read (memWrite m addr bs) a = Memory.read m a

/-- R43, R14: `BlockFromBytes` and `BytesFromBlock` are inverse to each other. -/
def Obligations.BlockByteConversionsInverse : Prop :=
  (∀ w : Word × Word, blockFromBytes (bytesFromBlock w) = w) ∧
  (∀ bs : List Byte, bs.length = 16 → bytesFromBlock (blockFromBytes bs) = bs)

/-- R127: a length that is no multiple of 16 is `INVALID_LENGTH`: nothing is written, the context is unchanged,
and `SRC` and `DST` are not examined. -/
def Obligations.InvalidLengthIsRejected : Prop :=
  ∀ (s : State) (src dst len : Word), s.ctxv = true → len.toNat % 16 ≠ 0 →
    ∀ i : Instr, i = .encbuf src dst len ∨ i = .decbuf src dst len →
      ∃ t, exec i s = .next t ∧ t.response = some (packResponse .invalidLength 0 0) ∧
        KeepsContext s t ∧ KeepsMemory s t ∧ KeepsInputs s t

/-- R129: `LEN = 0` answers `OK` with no byte written and no region check, for any `SRC` and `DST`; with no
context it is `InvalidContext`. -/
def Obligations.ZeroLengthIsAccepted : Prop :=
  ∀ (s : State) (src dst : Word) (i : Instr), i = .encbuf src dst 0 ∨ i = .decbuf src dst 0 →
    (s.ctxv = true → ∃ t, exec i s = .next t ∧ t.response = some (packResponse .ok 0 0) ∧
      KeepsContext s t ∧ KeepsMemory s t ∧ KeepsInputs s t) ∧
    (s.ctxv = false → exec i s = .fault .invalidContext)

/-- R59: the checks of `BufCheck` and of `KeyCheck`, each with its outcome, in their order. -/
def Obligations.RegionChecksRefuseInOrder : Prop :=
  (∀ (s : State) (src dst len : Word) (i : Instr), i = .encbuf src dst len ∨ i = .decbuf src dst len →
    s.ctxv = true → len.toNat % 16 = 0 → len.toNat ≠ 0 →
    (2 ^ 64 < src.toNat + len.toNat ∨ 2 ^ 64 < dst.toNat + len.toNat →
      exec i s = .refused .addressWrap) ∧
    (src.toNat + len.toNat ≤ 2 ^ 64 → dst.toNat + len.toNat ≤ 2 ^ 64 → src ≠ dst →
      src.toNat < dst.toNat + len.toNat → dst.toNat < src.toNat + len.toNat →
      exec i s = .refused .bufferOverlap) ∧
    (src.toNat + len.toNat ≤ 2 ^ 64 → dst.toNat + len.toNat ≤ 2 ^ 64 →
      (src = dst ∨ src.toNat + len.toNat ≤ dst.toNat ∨ dst.toNat + len.toNat ≤ src.toNat) →
      (∃ j < len.toNat, admits s.admission (src.toNat + j) .read = false ∨
        admits s.admission (dst.toNat + j) .write = false) →
      exec i s = .refused .memoryNotAdmitted)) ∧
  (∀ (s : State) (kaddr : Word),
    (2 ^ 64 < kaddr.toNat + 16 → exec (.initb kaddr) s = .refused .addressWrap) ∧
    (kaddr.toNat + 16 ≤ 2 ^ 64 → (∃ j < 16, admits s.admission (kaddr.toNat + j) .read = false) →
      exec (.initb kaddr) s = .refused .memoryNotAdmitted))

/-- R126, R131: under the host's duties `ENCBUF` answers `OK`; each output chunk is `EncBlock` of the input chunk
as it was before the command, also in place; no other byte changes. The transient registers may change (R26,
R27). -/
def Obligations.EncbufEqualsBlockwiseEncryption : Prop :=
  ∀ (s : State) (src dst len : Word),
    decode (lanes len dst src 0x05) = some (.encbuf src dst len) ∧
    (Memory.wf s.mem = true → s.ctxv = true → len.toNat % 16 = 0 → len.toNat ≠ 0 →
      RegionsLegal s src.toNat dst.toNat len.toNat →
      ∃ t, exec (.encbuf src dst len) s = .next t ∧
        t.response = some (packResponse .ok 0 0) ∧
        KeepsContext s t ∧ KeepsInputs s t ∧ KeepsMemoryOutside dst.toNat len.toNat s t ∧
        ∀ i < len.toNat / 16,
          memRead t.mem (dst.toNat + 16 * i) 16 =
            bytesFromBlock (encBlock s.rk
              (blockFromBytes (memRead s.mem (src.toNat + 16 * i) 16)).1
              (blockFromBytes (memRead s.mem (src.toNat + 16 * i) 16)).2))

/-- R130, R131: the same for `DECBUF` with `DecBlock`. -/
def Obligations.DecbufEqualsBlockwiseDecryption : Prop :=
  ∀ (s : State) (src dst len : Word),
    decode (lanes len dst src 0x06) = some (.decbuf src dst len) ∧
    (Memory.wf s.mem = true → s.ctxv = true → len.toNat % 16 = 0 → len.toNat ≠ 0 →
      RegionsLegal s src.toNat dst.toNat len.toNat →
      ∃ t, exec (.decbuf src dst len) s = .next t ∧
        t.response = some (packResponse .ok 0 0) ∧
        KeepsContext s t ∧ KeepsInputs s t ∧ KeepsMemoryOutside dst.toNat len.toNat s t ∧
        ∀ i < len.toNat / 16,
          memRead t.mem (dst.toNat + 16 * i) 16 =
            bytesFromBlock (decBlock s.rk
              (blockFromBytes (memRead s.mem (src.toNat + 16 * i) 16)).1
              (blockFromBytes (memRead s.mem (src.toNat + 16 * i) 16)).2))

/-- R133: what `ENCBUF` wrote, `DECBUF` under the same context turns back into the bytes `ENCBUF` read, if
nothing else wrote the region in between. -/
def Obligations.BufferRoundTrip : Prop :=
  ∀ (src dst out len : Word) (s t t' u : State),
    Memory.wf s.mem = true → Memory.wf t'.mem = true →
    exec (.encbuf src dst len) s = .next t → t.response = some (packResponse .ok 0 0) →
    t'.rk = t.rk →
    (∀ j < len.toNat, Memory.read t'.mem (dst.toNat + j) = Memory.read t.mem (dst.toNat + j)) →
    exec (.decbuf dst out len) t' = .next u → u.response = some (packResponse .ok 0 0) →
      ∀ j < len.toNat, Memory.read u.mem (out.toNat + j) = Memory.read s.mem (src.toNat + j)

/-- R132: an output chunk depends on its input chunk and `RK` alone: equal chunks, in one run or in two, at any
offsets, give equal output chunks. -/
def Obligations.EqualChunksGiveEqualChunks : Prop :=
  ∀ (src dst len src' dst' len' : Word) (s t s' t' : State) (i i' : Nat),
    Memory.wf s.mem = true → Memory.wf s'.mem = true → s.rk = s'.rk →
    exec (.encbuf src dst len) s = .next t → t.response = some (packResponse .ok 0 0) →
    exec (.encbuf src' dst' len') s' = .next t' → t'.response = some (packResponse .ok 0 0) →
    i < len.toNat / 16 → i' < len'.toNat / 16 →
    memRead s.mem (src.toNat + 16 * i) 16 = memRead s'.mem (src'.toNat + 16 * i') 16 →
      memRead t.mem (dst.toNat + 16 * i) 16 = memRead t'.mem (dst'.toNat + 16 * i') 16

/-- R135: in place, the outcome equals that of the same command with a disjoint `DST`. -/
def Obligations.InPlaceEqualsDisjoint : Prop :=
  ∀ (src dst len : Word) (s t t' : State), Memory.wf s.mem = true →
    (exec (.encbuf src src len) s = .next t ∧ exec (.encbuf src dst len) s = .next t' ∨
     exec (.decbuf src src len) s = .next t ∧ exec (.decbuf src dst len) s = .next t') →
    t.response = some (packResponse .ok 0 0) → t'.response = some (packResponse .ok 0 0) →
      ∀ j < len.toNat, Memory.read t.mem (src.toNat + j) = Memory.read t'.mem (dst.toNat + j)

/-- R128: "`ENCBUF` and `DECBUF` never change `CTXV` or `RK`, whatever their outcome" (a fault or a refusal leaves
no state). -/
def Obligations.BufferCommandsKeepContext : Prop :=
  ∀ (i : Instr) (s t : State), bufferOperands i ≠ none → exec i s = .next t → KeepsContext s t

/-- R41: only `ENCBUF` and `DECBUF` write buffer memory, and only their output region. -/
def Obligations.OnlyBufferCommandsWriteMemory : Prop :=
  ∀ (i : Instr) (s t : State), Memory.wf s.mem = true → exec i s = .next t →
    (bufferOperands i = none → KeepsMemory s t) ∧
    ∀ src dst len, bufferOperands i = some (src, dst, len) → KeepsMemoryOutside dst len s t

/-! ### The whole machine -/

/-- R145: a command that answers an error status leaves `CTXV`, `RK`, memory and the inputs as they were. -/
def Obligations.ErrorStatusChangesNothing : Prop :=
  ∀ (i : Instr) (s t : State) (p : ResponsePacket), exec i s = .next t → t.response = some p →
    responseStatus p ≠ 0 → KeepsContext s t ∧ KeepsMemory s t ∧ KeepsInputs s t

/-- R73, R74: which statuses each command answers, and where `R0` and `R1` are zero. -/
def Obligations.StatusesOfEachCommand : Prop :=
  ∀ (i : Instr) (s t : State), exec i s = .next t →
    ∃ st r0 r1, t.response = some (packResponse st r0 r1) ∧
      (constructs i = true → (st = .ok ∨ st = .allocationFailure) ∧ r0 = 0 ∧ r1 = 0) ∧
      (bufferOperands i ≠ none → (st = .ok ∨ st = .invalidLength) ∧ r0 = 0 ∧ r1 = 0) ∧
      (i = .finish → st = .ok ∧ r0 = 0 ∧ r1 = 0) ∧
      (holdsState i = true → st = .ok)

/-- R140, R168, R175: a command ends in a response exactly when the host has met its duties. -/
def Obligations.AnswersExactlyUnderHostDuties : Prop :=
  ∀ (i : Instr) (s : State), (∃ t, exec i s = .next t) ↔ Executable i s

/-- R152: of the conditions that hold for one command, the first in the table's order gives its one ending. -/
def Obligations.FirstConditionGivesEnding : Prop :=
  ∀ (s : State) (p : Packet) (grant : Bool) (rest : List Input), s.inputs = .command p grant :: rest →
    (decode p = none → ∀ e, EndsIn (step s) e ↔ e = .fault .reservedEncoding) ∧
    ∀ i, decode p = some i →
      ∀ e, EndsIn (step s) e ↔ FirstEnding i { s with inputs := rest, allocGrant := grant } e

/-- R24, R73 and the canonical form of memory: every step keeps the invariant, from every state that has it. -/
def Obligations.EveryStepKeepsInvariant : Prop :=
  ∀ s t : State, Inv s → step s = .next t → Inv t

/-- The invariant holds right after reset. -/
def Obligations.ResetMeetsInvariant : Prop := Inv State.reset

/-- R33: the values the spec gives for reset: no context, port idle, no response pending. -/
def Obligations.ResetHasNoContext : Prop :=
  State.reset.ctxv = false ∧ State.reset.inputs = [] ∧ State.reset.response = none

/-- R24, R26, R27: no result depends on `RK` with no context, on the transient registers, or on a free value:
two states a host cannot tell apart step to results it cannot tell apart. (An abandoned command is left out:
which bytes it wrote is itself a free value, R167.) -/
def Obligations.UnspecifiedStateIsUnobservable : Prop :=
  ∀ s s' : State, SameVisible s s' →
    (∀ p grant rest, s.inputs ≠ .abandoned p grant :: rest) →
      SameVisibleResult (step s) (step s')
end

