-- ==== Sys2Proof/Laws/Decode.lean ====
section
/-! SUPPORT. The lemmas that take packets apart by lanes and fields, and say when a row matches. -/

namespace Sys2Proof

/-- Every bit of a packet of lanes. -/
theorem lanes_getLsbD (a b c d : Word) (i : Nat) :
    (lanes a b c d).getLsbD i =
      if i < 64 then d.getLsbD i
      else if i < 128 then c.getLsbD (i - 64)
      else if i < 192 then b.getLsbD (i - 128)
      else a.getLsbD (i - 192) := by
  have h : (lanes a b c d).getLsbD i =
      BitVec.getLsbD (a ++ b ++ c ++ d : BitVec (64 + 64 + 64 + 64)) i := rfl
  rw [h]
  simp only [BitVec.getLsbD_append]
  have e1 : i - 64 < 64 ↔ i < 128 := by omega
  rw [show i - 64 - 64 - 64 = i - 192 by omega, show i - 64 - 64 = i - 128 by omega]
  have e2 : i - 128 < 64 ↔ i < 192 := by omega
  by_cases h1 : i < 64
  · simp [h1]
  · by_cases h2 : i < 128
    · simp [h1, e1, h2]
    · simp [h1, e1, h2, e2]

/-- A packet is its four lanes. -/
theorem lanes_fields (p : Packet) : lanes (fieldC p) (fieldB p) (fieldA p) (fieldControl p) = p := by
  apply BitVec.eq_of_getLsbD_eq
  intro i hi
  simp only [lanes_getLsbD, fieldControl, fieldA, fieldB, fieldC, BitVec.getLsbD_extractLsb']
  split_ifs with h1 h2 h3
  · simp [h1]
  · rw [show 64 + (i - 64) = i by omega]
    simp
    omega
  · rw [show 128 + (i - 128) = i by omega]
    simp
    omega
  · rw [show 192 + (i - 192) = i by omega]
    simp
    omega

@[simp] theorem fieldControl_lanes (a b c d : Word) : fieldControl (lanes a b c d) = d := by
  apply BitVec.eq_of_getLsbD_eq
  intro i hi
  simp [fieldControl, lanes_getLsbD, hi]

@[simp] theorem fieldA_lanes (a b c d : Word) : fieldA (lanes a b c d) = c := by
  apply BitVec.eq_of_getLsbD_eq
  intro i hi
  have h2 : 64 + i < 128 := by omega
  simp [fieldA, lanes_getLsbD, hi, h2]

@[simp] theorem fieldB_lanes (a b c d : Word) : fieldB (lanes a b c d) = b := by
  apply BitVec.eq_of_getLsbD_eq
  intro i hi
  have h1 : ¬ 128 + i < 64 := by omega
  have h3 : 128 + i < 192 := by omega
  simp [fieldB, lanes_getLsbD, hi, h1, h3]

@[simp] theorem fieldC_lanes (a b c d : Word) : fieldC (lanes a b c d) = a := by
  apply BitVec.eq_of_getLsbD_eq
  intro i hi
  have h1 : ¬ 192 + i < 64 := by omega
  have h2 : ¬ 192 + i < 128 := by omega
  simp [fieldC, lanes_getLsbD, hi, h1, h2]

/-- Two packets of lanes are equal exactly when their lanes are. -/
theorem lanes_inj {a b c d a' b' c' d' : Word} :
    lanes a b c d = lanes a' b' c' d' ↔ a = a' ∧ b = b' ∧ c = c' ∧ d = d' := by
  constructor
  · intro h
    exact ⟨by simpa using congrArg fieldC h, by simpa using congrArg fieldB h,
      by simpa using congrArg fieldA h, by simpa using congrArg fieldControl h⟩
  · rintro ⟨rfl, rfl, rfl, rfl⟩
    rfl

theorem lanes_and (a b c d a' b' c' d' : Word) :
    lanes a b c d &&& lanes a' b' c' d' = lanes (a &&& a') (b &&& b') (c &&& c') (d &&& d') := by
  apply BitVec.eq_of_getLsbD_eq
  intro i hi
  simp only [lanes_getLsbD, BitVec.getLsbD_and]
  split_ifs <;> rfl

/-- Every bit of a control lane. -/
theorem controlLane_getLsbD (var : BitVec 4) (op : BitVec 8) (i : Nat) :
    (controlLane var op).getLsbD i =
      if i < 8 then op.getLsbD i else if i < 12 then var.getLsbD (i - 8) else false := by
  have h : (controlLane var op).getLsbD i =
      BitVec.getLsbD ((0 : BitVec 52) ++ var ++ op : BitVec (52 + 4 + 8)) i := rfl
  rw [h]
  simp only [BitVec.getLsbD_append]
  have e1 : i - 8 < 4 ↔ i < 12 := by omega
  by_cases h1 : i < 8
  · simp [h1]
  · simp [h1, e1]

/-- The control lane of a packet, by its three fields (R61). -/
theorem fieldControl_eq_controlLane {p : Packet} {var : BitVec 4} {op : BitVec 8} :
    fieldControl p = controlLane var op ↔ fieldOp p = op ∧ fieldVar p = var ∧ fieldRsv p = 0 := by
  constructor
  · intro h
    have hb : ∀ i < 64, p.getLsbD i = (controlLane var op).getLsbD i := by
      intro i hi
      have := congrArg (fun w : Word => w.getLsbD i) h
      simpa [fieldControl, hi] using this
    refine ⟨?_, ?_, ?_⟩ <;> apply BitVec.eq_of_getLsbD_eq <;> intro i hi
    · have := hb i (by omega)
      simp [fieldOp, this, controlLane_getLsbD, hi]
    · have := hb (8 + i) (by omega)
      simp [fieldVar, this, controlLane_getLsbD, hi, show 8 + i < 12 by omega]
    · have := hb (12 + i) (by omega)
      simp [fieldRsv, this, controlLane_getLsbD, show ¬ 12 + i < 8 by omega]
  · rintro ⟨rfl, rfl, hr⟩
    apply BitVec.eq_of_getLsbD_eq
    intro i hi
    simp only [fieldControl, BitVec.getLsbD_extractLsb', controlLane_getLsbD, fieldOp, fieldVar]
    split_ifs with h1 h2
    · simp [h1, hi]
    · simp [show i - 8 < 4 by omega, show 8 + (i - 8) = i by omega, hi]
    · have := congrArg (fun w : BitVec 52 => w.getLsbD (i - 12)) hr
      simp only [fieldRsv, BitVec.getLsbD_extractLsb', show 12 + (i - 12) = i by omega] at this
      simpa [show i - 12 < 52 by omega, hi] using this

theorem and_onesLane (a : Word) : a &&& onesLane = a := BitVec.and_allOnes

/-- A row whose mask compares `Q0` and `Q3` (R65). -/
theorem rowMatches_q0_q3 {p : Packet} {m : Mnemonic} {w : Word} :
    rowMatches p ⟨m, lanes onesLane 0 0 onesLane, lanes 0 0 0 w⟩ = true ↔
      fieldControl p = w ∧ fieldC p = 0 := by
  obtain ⟨a, b, c, d, rfl⟩ : ∃ a b c d, p = lanes a b c d := ⟨_, _, _, _, (lanes_fields p).symm⟩
  simp [rowMatches, lanes_and, lanes_inj, and_onesLane, and_comm]

/-- A row whose mask compares `Q0`, `Q2` and `Q3` (R65). -/
theorem rowMatches_q0_q2_q3 {p : Packet} {m : Mnemonic} {w : Word} :
    rowMatches p ⟨m, lanes onesLane onesLane 0 onesLane, lanes 0 0 0 w⟩ = true ↔
      fieldControl p = w ∧ fieldB p = 0 ∧ fieldC p = 0 := by
  obtain ⟨a, b, c, d, rfl⟩ : ∃ a b c d, p = lanes a b c d := ⟨_, _, _, _, (lanes_fields p).symm⟩
  simp [rowMatches, lanes_and, lanes_inj, and_onesLane, and_comm, and_left_comm]

/-- A row whose mask compares `Q0` alone (R65). -/
theorem rowMatches_q0 {p : Packet} {m : Mnemonic} {w : Word} :
    rowMatches p ⟨m, lanes 0 0 0 onesLane, lanes 0 0 0 w⟩ = true ↔ fieldControl p = w := by
  obtain ⟨a, b, c, d, rfl⟩ : ∃ a b c d, p = lanes a b c d := ⟨_, _, _, _, (lanes_fields p).symm⟩
  simp [rowMatches, lanes_and, lanes_inj, and_onesLane]

/-- A row whose mask compares all four lanes (R65). -/
theorem rowMatches_all {p : Packet} {m : Mnemonic} {w : Word} :
    rowMatches p ⟨m, lanes onesLane onesLane onesLane onesLane, lanes 0 0 0 w⟩ = true ↔
      fieldControl p = w ∧ fieldA p = 0 ∧ fieldB p = 0 ∧ fieldC p = 0 := by
  obtain ⟨a, b, c, d, rfl⟩ : ∃ a b c d, p = lanes a b c d := ⟨_, _, _, _, (lanes_fields p).symm⟩
  simp [rowMatches, lanes_and, lanes_inj, and_onesLane, and_comm, and_left_comm, and_assoc]

end Sys2Proof
end

