-- ==== Sys2Proof/Laws/Memory.lean ====
section
/-! SUPPORT. The laws of buffer memory: what a read after a write gives, and that every operation that
writes memory keeps the canonical form `Memory.wf`. -/

namespace Sys2Proof.Machine

theorem Memory.read_of_lt {lo x : Nat} {m : Memory} (h : Memory.wfFrom lo m) (hx : x < lo) :
    Memory.read m x = unlistedByte := by
  induction m generalizing lo with
  | nil => rfl
  | cons c m ih =>
    obtain ⟨a, b⟩ := c
    simp only [Memory.wfFrom, Bool.and_eq_true, decide_eq_true_eq] at h
    have hne : x ≠ a := by omega
    simp only [Memory.read, if_neg hne]
    exact ih h.2 (by omega)

theorem Memory.read_cons (x : Nat) (v : Byte) (m : Memory) (y : Nat)
    (hx : Memory.read m x = unlistedByte) :
    Memory.read (Memory.cons x v m) y = if y = x then v else Memory.read m y := by
  unfold Memory.cons
  split
  · next hv => split
               · next hy => rw [hy, hx, hv]
               · rfl
  · rfl

/-- A byte read after a byte write: the value written there, every other byte as before (R45). -/
theorem Memory.read_write {lo : Nat} {m : Memory} (h : Memory.wfFrom lo m) (x : Nat) (v : Byte) (y : Nat) :
    Memory.read (Memory.write m x v) y = if y = x then v else Memory.read m y := by
  induction m generalizing lo with
  | nil => exact Memory.read_cons x v [] y rfl
  | cons c m ih =>
    obtain ⟨a, b⟩ := c
    simp only [Memory.wfFrom, Bool.and_eq_true, decide_eq_true_eq] at h
    simp only [Memory.write]
    split
    · next hlt =>
      refine Memory.read_cons x v _ y ?_
      have hne : x ≠ a := by omega
      simp only [Memory.read, if_neg hne]
      exact Memory.read_of_lt h.2 (by omega)
    · split
      · next hxa =>
        subst hxa
        rw [Memory.read_cons x v m y (Memory.read_of_lt h.2 (by omega))]
        by_cases hy : y = x
        · simp [hy]
        · simp [Memory.read, hy]
      · next hne =>
        by_cases hy : y = a
        · have : y ≠ x := by omega
          simp [Memory.read, hy, Ne.symm hne]
        · simp [Memory.read, hy, ih h.2]

theorem Memory.wfFrom_mono {lo lo' : Nat} {m : Memory} (h : Memory.wfFrom lo m) (hl : lo' ≤ lo) :
    Memory.wfFrom lo' m := by
  cases m with
  | nil => rfl
  | cons c m =>
    obtain ⟨a, b⟩ := c
    simp only [Memory.wfFrom, Bool.and_eq_true, decide_eq_true_eq] at h ⊢
    exact ⟨⟨⟨by omega, h.1.1.2⟩, h.1.2⟩, h.2⟩

theorem Memory.wfFrom_cons {x : Nat} {v : Byte} {m : Memory} (h : Memory.wfFrom (x + 1) m)
    (hx : x < 2 ^ 64) : Memory.wfFrom x (Memory.cons x v m) := by
  unfold Memory.cons
  split
  · exact Memory.wfFrom_mono h (by omega)
  · next hv => simpa [Memory.wfFrom, hv, h, Config.memSize] using hx

theorem Memory.wfFrom_write {lo x : Nat} {m : Memory} (v : Byte) (h : Memory.wfFrom lo m) (hlo : lo ≤ x)
    (hx : x < 2 ^ 64) : Memory.wfFrom lo (Memory.write m x v) := by
  induction m generalizing lo with
  | nil => exact Memory.wfFrom_mono (Memory.wfFrom_cons rfl hx) hlo
  | cons c m ih =>
    obtain ⟨a, b⟩ := c
    have h' := h
    simp only [Memory.wfFrom, Bool.and_eq_true, decide_eq_true_eq] at h
    simp only [Memory.write]
    split
    · next hlt =>
      refine Memory.wfFrom_mono (Memory.wfFrom_cons ?_ hx) hlo
      simp only [Memory.wfFrom, Bool.and_eq_true, decide_eq_true_eq]
      exact ⟨⟨⟨by omega, h.1.1.2⟩, h.1.2⟩, h.2⟩
    · split
      · next hxa =>
        subst hxa
        exact Memory.wfFrom_mono (Memory.wfFrom_cons h.2 hx) hlo
      · next hne =>
        simp only [Memory.wfFrom, Bool.and_eq_true, decide_eq_true_eq]
        exact ⟨h.1, ih h.2 (by omega)⟩

/-- A byte write keeps the canonical form. -/
theorem Memory.wf_write {m : Memory} (x : Nat) (v : Byte) (h : Memory.wf m) (hx : x < 2 ^ 64) :
    Memory.wf (Memory.write m x v) :=
  Memory.wfFrom_write v h (Nat.zero_le x) hx

/-- `MemWrite` keeps the canonical form when its last byte lies in the address space. -/
theorem memWrite_wf {m : Memory} {addr : Nat} {bs : List Byte} (h : Memory.wf m)
    (hb : addr + bs.length ≤ 2 ^ 64) : Memory.wf (memWrite m addr bs) := by
  induction bs generalizing m addr with
  | nil => exact h
  | cons b bs ih =>
    simp only [List.length_cons] at hb
    exact ih (Memory.wf_write addr b h (by omega)) (by omega)

theorem bytesFromBlock_length (w : Word × Word) : (bytesFromBlock w).length = 16 := by
  simp [bytesFromBlock, bytesLe64]

theorem processChunk_wf (f : Word → Word → Word × Word) {src dst : Nat} {m : Memory} (h : Memory.wf m)
    (hd : dst + 16 ≤ 2 ^ 64) : Memory.wf (processChunk f src dst m) :=
  memWrite_wf h (by rw [bytesFromBlock_length]; exact hd)

/-- The chunks of a buffer command keep the canonical form when the output region does not wrap. -/
theorem processChunks_wf (f : Word → Word → Word × Word) {n src dst : Nat} {m : Memory} (h : Memory.wf m)
    (hd : dst + 16 * n ≤ 2 ^ 64) : Memory.wf (processChunks f n src dst m) := by
  induction n generalizing src dst m with
  | zero => exact h
  | succ n ih =>
    exact ih (src := src + 16) (dst := dst + 16) (processChunk_wf f h (by omega)) (by omega)

/-- What an abandoned buffer command leaves keeps the canonical form. -/
theorem mixBytes_wf (done : Memory) {n addr k : Nat} {m : Memory} (h : Memory.wf m)
    (ha : addr + n ≤ 2 ^ 64) : Memory.wf (mixBytes done n addr k m) := by
  induction n generalizing addr k m with
  | zero => exact h
  | succ n ih =>
    refine ih ?_ (by omega)
    split
    · exact Memory.wf_write addr _ h (by omega)
    · exact h

/-- A write by another agent keeps the canonical form. -/
theorem hostWriteByte_wf (x : Word) (v : Byte) {s : State} (h : Memory.wf s.mem) :
    Memory.wf (hostWriteByte x v s).mem :=
  Memory.wf_write x.toNat v h x.isLt

theorem reset_mem_wf : Memory.wf State.reset.mem := rfl

end Sys2Proof.Machine
end

