-- ==== Sys2Proof/Laws/State.lean ====
section
/-! SUPPORT. What each named update of the state makes of each field: one lemma per field per update. -/

namespace Sys2Proof.Machine

@[simp] theorem writeRk_ctxv (r : Vector Word 32) (s : State) : (writeRk r s).ctxv = s.ctxv := rfl
@[simp] theorem writeRk_rk (r : Vector Word 32) (s : State) : (writeRk r s).rk = r := rfl
@[simp] theorem writeRk_w0 (r : Vector Word 32) (s : State) : (writeRk r s).w0 = s.w0 := rfl
@[simp] theorem writeRk_w1 (r : Vector Word 32) (s : State) : (writeRk r s).w1 = s.w1 := rfl
@[simp] theorem writeRk_rnd (r : Vector Word 32) (s : State) : (writeRk r s).rnd = s.rnd := rfl
@[simp] theorem writeRk_chk (r : Vector Word 32) (s : State) : (writeRk r s).chk = s.chk := rfl
@[simp] theorem writeRk_mem (r : Vector Word 32) (s : State) : (writeRk r s).mem = s.mem := rfl
@[simp] theorem writeRk_response (r : Vector Word 32) (s : State) : (writeRk r s).response = s.response := rfl
@[simp] theorem writeRk_inputs (r : Vector Word 32) (s : State) : (writeRk r s).inputs = s.inputs := rfl
@[simp] theorem writeRk_allocGrant (r : Vector Word 32) (s : State) : (writeRk r s).allocGrant = s.allocGrant := rfl
@[simp] theorem writeRk_admit (r : Vector Word 32) (s : State) : (writeRk r s).admission = s.admission := rfl
@[simp] theorem writeRk_fresh (r : Vector Word 32) (s : State) : (writeRk r s).fresh = s.fresh := rfl

@[simp] theorem setCtxv_ctxv (v : Bool) (s : State) : (setCtxv v s).ctxv = v := rfl
@[simp] theorem setCtxv_rk (v : Bool) (s : State) : (setCtxv v s).rk = s.rk := rfl
@[simp] theorem setCtxv_w0 (v : Bool) (s : State) : (setCtxv v s).w0 = s.w0 := rfl
@[simp] theorem setCtxv_w1 (v : Bool) (s : State) : (setCtxv v s).w1 = s.w1 := rfl
@[simp] theorem setCtxv_rnd (v : Bool) (s : State) : (setCtxv v s).rnd = s.rnd := rfl
@[simp] theorem setCtxv_chk (v : Bool) (s : State) : (setCtxv v s).chk = s.chk := rfl
@[simp] theorem setCtxv_mem (v : Bool) (s : State) : (setCtxv v s).mem = s.mem := rfl
@[simp] theorem setCtxv_response (v : Bool) (s : State) : (setCtxv v s).response = s.response := rfl
@[simp] theorem setCtxv_inputs (v : Bool) (s : State) : (setCtxv v s).inputs = s.inputs := rfl
@[simp] theorem setCtxv_allocGrant (v : Bool) (s : State) : (setCtxv v s).allocGrant = s.allocGrant := rfl
@[simp] theorem setCtxv_admit (v : Bool) (s : State) : (setCtxv v s).admission = s.admission := rfl
@[simp] theorem setCtxv_fresh (v : Bool) (s : State) : (setCtxv v s).fresh = s.fresh := rfl

@[simp] theorem freeRk_ctxv (s : State) : (freeRk s).ctxv = s.ctxv := rfl
@[simp] theorem freeRk_rk (s : State) : (freeRk s).rk = freeSubkeys s.fresh := rfl
@[simp] theorem freeRk_w0 (s : State) : (freeRk s).w0 = s.w0 := rfl
@[simp] theorem freeRk_w1 (s : State) : (freeRk s).w1 = s.w1 := rfl
@[simp] theorem freeRk_rnd (s : State) : (freeRk s).rnd = s.rnd := rfl
@[simp] theorem freeRk_chk (s : State) : (freeRk s).chk = s.chk := rfl
@[simp] theorem freeRk_mem (s : State) : (freeRk s).mem = s.mem := rfl
@[simp] theorem freeRk_response (s : State) : (freeRk s).response = s.response := rfl
@[simp] theorem freeRk_inputs (s : State) : (freeRk s).inputs = s.inputs := rfl
@[simp] theorem freeRk_allocGrant (s : State) : (freeRk s).allocGrant = s.allocGrant := rfl
@[simp] theorem freeRk_admit (s : State) : (freeRk s).admission = s.admission := rfl
@[simp] theorem freeRk_fresh (s : State) : (freeRk s).fresh = s.fresh + 32 := rfl

@[simp] theorem freeWork_ctxv (s : State) : (freeWork s).ctxv = s.ctxv := rfl
@[simp] theorem freeWork_rk (s : State) : (freeWork s).rk = s.rk := rfl
@[simp] theorem freeWork_w0 (s : State) : (freeWork s).w0 = Config.freeWord s.fresh := rfl
@[simp] theorem freeWork_w1 (s : State) : (freeWork s).w1 = Config.freeWord (s.fresh + 1) := rfl
@[simp] theorem freeWork_rnd (s : State) : (freeWork s).rnd = (Config.freeWord (s.fresh + 2)).setWidth 5 := rfl
@[simp] theorem freeWork_chk (s : State) : (freeWork s).chk = s.chk := rfl
@[simp] theorem freeWork_mem (s : State) : (freeWork s).mem = s.mem := rfl
@[simp] theorem freeWork_response (s : State) : (freeWork s).response = s.response := rfl
@[simp] theorem freeWork_inputs (s : State) : (freeWork s).inputs = s.inputs := rfl
@[simp] theorem freeWork_allocGrant (s : State) : (freeWork s).allocGrant = s.allocGrant := rfl
@[simp] theorem freeWork_admit (s : State) : (freeWork s).admission = s.admission := rfl
@[simp] theorem freeWork_fresh (s : State) : (freeWork s).fresh = s.fresh + 3 := rfl

@[simp] theorem freeChk_ctxv (s : State) : (freeChk s).ctxv = s.ctxv := rfl
@[simp] theorem freeChk_rk (s : State) : (freeChk s).rk = s.rk := rfl
@[simp] theorem freeChk_w0 (s : State) : (freeChk s).w0 = s.w0 := rfl
@[simp] theorem freeChk_w1 (s : State) : (freeChk s).w1 = s.w1 := rfl
@[simp] theorem freeChk_rnd (s : State) : (freeChk s).rnd = s.rnd := rfl
@[simp] theorem freeChk_chk (s : State) : (freeChk s).chk = (Config.freeWord s.fresh).setWidth 60 := rfl
@[simp] theorem freeChk_mem (s : State) : (freeChk s).mem = s.mem := rfl
@[simp] theorem freeChk_response (s : State) : (freeChk s).response = s.response := rfl
@[simp] theorem freeChk_inputs (s : State) : (freeChk s).inputs = s.inputs := rfl
@[simp] theorem freeChk_allocGrant (s : State) : (freeChk s).allocGrant = s.allocGrant := rfl
@[simp] theorem freeChk_admit (s : State) : (freeChk s).admission = s.admission := rfl
@[simp] theorem freeChk_fresh (s : State) : (freeChk s).fresh = s.fresh + 1 := rfl

@[simp] theorem accept_ctxv (g : Bool) (rest : List Input) (s : State) : (accept g rest s).ctxv = s.ctxv := rfl
@[simp] theorem accept_rk (g : Bool) (rest : List Input) (s : State) : (accept g rest s).rk = s.rk := rfl
@[simp] theorem accept_w0 (g : Bool) (rest : List Input) (s : State) : (accept g rest s).w0 = s.w0 := rfl
@[simp] theorem accept_w1 (g : Bool) (rest : List Input) (s : State) : (accept g rest s).w1 = s.w1 := rfl
@[simp] theorem accept_rnd (g : Bool) (rest : List Input) (s : State) : (accept g rest s).rnd = s.rnd := rfl
@[simp] theorem accept_chk (g : Bool) (rest : List Input) (s : State) : (accept g rest s).chk = s.chk := rfl
@[simp] theorem accept_mem (g : Bool) (rest : List Input) (s : State) : (accept g rest s).mem = s.mem := rfl
@[simp] theorem accept_response (g : Bool) (rest : List Input) (s : State) : (accept g rest s).response = s.response := rfl
@[simp] theorem accept_inputs (g : Bool) (rest : List Input) (s : State) : (accept g rest s).inputs = rest := rfl
@[simp] theorem accept_allocGrant (g : Bool) (rest : List Input) (s : State) : (accept g rest s).allocGrant = g := rfl
@[simp] theorem accept_admit (g : Bool) (rest : List Input) (s : State) : (accept g rest s).admission = s.admission := rfl
@[simp] theorem accept_fresh (g : Bool) (rest : List Input) (s : State) : (accept g rest s).fresh = s.fresh := rfl

@[simp] theorem resetEngine_ctxv (s : State) : (resetEngine s).ctxv = false := rfl
@[simp] theorem resetEngine_rk (s : State) : (resetEngine s).rk = freeSubkeys s.fresh := rfl
@[simp] theorem resetEngine_w0 (s : State) : (resetEngine s).w0 = Config.freeWord (s.fresh + 32) := rfl
@[simp] theorem resetEngine_w1 (s : State) : (resetEngine s).w1 = Config.freeWord (s.fresh + 33) := rfl
@[simp] theorem resetEngine_rnd (s : State) : (resetEngine s).rnd = (Config.freeWord (s.fresh + 34)).setWidth 5 := rfl
@[simp] theorem resetEngine_chk (s : State) : (resetEngine s).chk = (Config.freeWord (s.fresh + 35)).setWidth 60 := rfl
@[simp] theorem resetEngine_mem (s : State) : (resetEngine s).mem = s.mem := rfl
@[simp] theorem resetEngine_response (s : State) : (resetEngine s).response = none := rfl
@[simp] theorem resetEngine_inputs (s : State) : (resetEngine s).inputs = s.inputs := rfl
@[simp] theorem resetEngine_allocGrant (s : State) : (resetEngine s).allocGrant = s.allocGrant := rfl
@[simp] theorem resetEngine_admit (s : State) : (resetEngine s).admission = s.admission := rfl
@[simp] theorem resetEngine_fresh (s : State) : (resetEngine s).fresh = s.fresh + 36 := rfl

@[simp] theorem hostWriteByte_ctxv (x : Word) (v : Byte) (s : State) : (hostWriteByte x v s).ctxv = s.ctxv := rfl
@[simp] theorem hostWriteByte_rk (x : Word) (v : Byte) (s : State) : (hostWriteByte x v s).rk = s.rk := rfl
@[simp] theorem hostWriteByte_w0 (x : Word) (v : Byte) (s : State) : (hostWriteByte x v s).w0 = s.w0 := rfl
@[simp] theorem hostWriteByte_w1 (x : Word) (v : Byte) (s : State) : (hostWriteByte x v s).w1 = s.w1 := rfl
@[simp] theorem hostWriteByte_rnd (x : Word) (v : Byte) (s : State) : (hostWriteByte x v s).rnd = s.rnd := rfl
@[simp] theorem hostWriteByte_chk (x : Word) (v : Byte) (s : State) : (hostWriteByte x v s).chk = s.chk := rfl
@[simp] theorem hostWriteByte_mem (x : Word) (v : Byte) (s : State) : (hostWriteByte x v s).mem = Memory.write s.mem x.toNat v := rfl
@[simp] theorem hostWriteByte_response (x : Word) (v : Byte) (s : State) : (hostWriteByte x v s).response = s.response := rfl
@[simp] theorem hostWriteByte_inputs (x : Word) (v : Byte) (s : State) : (hostWriteByte x v s).inputs = s.inputs := rfl
@[simp] theorem hostWriteByte_allocGrant (x : Word) (v : Byte) (s : State) : (hostWriteByte x v s).allocGrant = s.allocGrant := rfl
@[simp] theorem hostWriteByte_admit (x : Word) (v : Byte) (s : State) : (hostWriteByte x v s).admission = s.admission := rfl
@[simp] theorem hostWriteByte_fresh (x : Word) (v : Byte) (s : State) : (hostWriteByte x v s).fresh = s.fresh := rfl

@[simp] theorem replaceAdmit_ctxv (l : List Region) (s : State) : (replaceAdmit l s).ctxv = s.ctxv := rfl
@[simp] theorem replaceAdmit_rk (l : List Region) (s : State) : (replaceAdmit l s).rk = s.rk := rfl
@[simp] theorem replaceAdmit_w0 (l : List Region) (s : State) : (replaceAdmit l s).w0 = s.w0 := rfl
@[simp] theorem replaceAdmit_w1 (l : List Region) (s : State) : (replaceAdmit l s).w1 = s.w1 := rfl
@[simp] theorem replaceAdmit_rnd (l : List Region) (s : State) : (replaceAdmit l s).rnd = s.rnd := rfl
@[simp] theorem replaceAdmit_chk (l : List Region) (s : State) : (replaceAdmit l s).chk = s.chk := rfl
@[simp] theorem replaceAdmit_mem (l : List Region) (s : State) : (replaceAdmit l s).mem = s.mem := rfl
@[simp] theorem replaceAdmit_response (l : List Region) (s : State) : (replaceAdmit l s).response = s.response := rfl
@[simp] theorem replaceAdmit_inputs (l : List Region) (s : State) : (replaceAdmit l s).inputs = s.inputs := rfl
@[simp] theorem replaceAdmit_allocGrant (l : List Region) (s : State) : (replaceAdmit l s).allocGrant = s.allocGrant := rfl
@[simp] theorem replaceAdmit_admission (l : List Region) (s : State) : (replaceAdmit l s).admission = l := rfl
@[simp] theorem replaceAdmit_fresh (l : List Region) (s : State) : (replaceAdmit l s).fresh = s.fresh := rfl

end Sys2Proof.Machine
end

