-- ==== Sys2Proof/Laws/Ops.lean ====
section
/-! SUPPORT. One lemma per shared operation that says everything it can do; proofs cite these and do
not unfold the operation. -/

namespace Sys2Proof.Machine

/-- `respond` always answers, and changes the response port alone. -/
theorem respond_eq_next {status : Status} {r0 r1 : Word} {s t : State} :
    respond status r0 r1 s = .next t ↔ t = { s with response := some (packResponse status r0 r1) } := by
  simp [respond, eq_comm]

theorem noWrap_iff {a n : Nat} : noWrap a n = true ↔ a + n ≤ 2 ^ 64 :=
  decide_eq_true_iff

theorem disjoint_iff {a b n : Nat} : disjoint a b n = true ↔ a + n ≤ b ∨ b + n ≤ a := by simp [disjoint]

theorem admitted_iff {l : List Region} {a n : Nat} {kind : AccessKind} :
    admitted l a n kind = true ↔ ∀ j < n, admits l (a + j) kind = true := by
  simp [admitted]

/-- `BufCheck` passes exactly when all three tests of R59 do. -/
theorem bufCheck_eq_none {l : List Region} {src dst len : Nat} :
    bufCheck l src dst len = none ↔
      (noWrap src len = true ∧ noWrap dst len = true) ∧ (src = dst ∨ disjoint src dst len = true) ∧
        admitted l src len .read = true ∧ admitted l dst len .write = true := by
  unfold bufCheck
  cases noWrap src len <;> cases noWrap dst len <;> cases disjoint src dst len <;>
    cases admitted l src len .read <;> cases admitted l dst len .write <;>
    by_cases h : src = dst <;> simp [h]

/-- `KeyCheck` passes exactly when both its tests do. -/
theorem keyCheck_eq_none {l : List Region} {kaddr : Nat} :
    keyCheck l kaddr = none ↔
      noWrap kaddr 16 = true ∧ admitted l kaddr 16 .read = true := by
  unfold keyCheck
  simp only [Config.blockBytes]
  cases noWrap kaddr 16 <;> cases admitted l kaddr 16 .read <;> simp

/-- Construction always answers: with `ALLOCATION_FAILURE` and nothing changed, or with the context made. -/
theorem construct_cases {k0 k1 : Word} {s t : State} (h : construct k0 k1 s = .next t) :
    ((s.ctxv = true ∨ s.allocGrant = false) ∧
      t = { s with response := some (packResponse .allocationFailure 0 0) }) ∨
    (s.ctxv = false ∧ s.allocGrant = true ∧
      t = { setCtxv true (writeRk (keyExpand k0 k1) (freeWork s)) with
            response := some (packResponse .ok 0 0) }) := by
  unfold construct at h
  split at h
  · next hc => exact .inl ⟨by simpa using hc, respond_eq_next.mp h⟩
  · next hc =>
    have hc' : s.ctxv = false ∧ s.allocGrant = true := by simpa using hc
    exact .inr ⟨hc'.1, hc'.2, respond_eq_next.mp h⟩

/-- A buffer command that answers had a context, and did one of three things (R126, R127, R129). -/
theorem processBuffer_cases {f : Vector Word 32 → Word → Word → Word × Word} {src dst len : Word}
    {s t : State} (h : processBuffer f src dst len s = .next t) :
    s.ctxv = true ∧
    ((len.toNat % 16 ≠ 0 ∧ t = { s with response := some (packResponse .invalidLength 0 0) }) ∨
     (len.toNat = 0 ∧ t = { s with response := some (packResponse .ok 0 0) }) ∨
     (len.toNat % 16 = 0 ∧ len.toNat ≠ 0 ∧ bufCheck s.admission src.toNat dst.toNat len.toNat = none ∧
       t = { freeChk (freeWork
               { s with mem := processChunks (f s.rk) (len.toNat / 16) src.toNat dst.toNat s.mem }) with
             response := some (packResponse .ok 0 0) })) := by
  unfold processBuffer at h
  split at h
  · cases h
  · next hc =>
    refine ⟨by simpa using hc, ?_⟩
    split at h
    · next hl => exact .inl ⟨hl, respond_eq_next.mp h⟩
    · next hl =>
      simp only [Config.blockBytes, ne_eq, Decidable.not_not] at hl
      split at h
      · next hz =>
        simp only [Config.blockBytes] at hz
        exact .inr (.inl ⟨by omega, respond_eq_next.mp h⟩)
      · next hz =>
        simp only [Config.blockBytes] at hz
        split at h
        · cases h
        · next hb => exact .inr (.inr ⟨hl, by omega, hb, respond_eq_next.mp h⟩)

/-- What a next state of an abandoned command is (R167). -/
theorem abandon_eq_next {i : Instr} {s : State} {r : Result} {u : State} (h : abandon i s r = .next u) :
    ∃ t, r = .next t ∧ u = resetEngine
      { s with mem := mixBytes t.mem (storeRegion i).2 (storeRegion i).1 s.fresh s.mem
               fresh := s.fresh + (storeRegion i).2 } := by
  unfold abandon at h
  cases r with
  | next t => exact ⟨t, rfl, by simpa [eq_comm] using h⟩
  | fault f => cases h
  | refused f => cases h

/-- The events of a step that answers (R60, R157, R166, R167). -/
theorem step_cases {s t : State} (h : step s = .next t) :
    (s.inputs = [] ∧ t = s) ∨
    (∃ p g rest i, s.inputs = .command p g :: rest ∧ decode p = some i ∧
      exec i (accept g rest s) = .next t) ∨
    (∃ p g rest i, s.inputs = .abandoned p g :: rest ∧ decode p = some i ∧
      abandon i (accept g rest s) (exec i (accept g rest s)) = .next t) ∨
    (∃ rest, s.inputs = .reset :: rest ∧ t = resetEngine { s with inputs := rest }) ∨
    (∃ x v rest, s.inputs = .hostWrite x v :: rest ∧ t = hostWriteByte x v { s with inputs := rest }) ∨
    (∃ l rest, s.inputs = .setAdmit l :: rest ∧ t = replaceAdmit l { s with inputs := rest }) := by
  unfold step at h
  split at h
  · next hi => exact .inl ⟨hi, by simpa [eq_comm] using h⟩
  · next p g rest hi =>
    split at h
    · next i hd => exact .inr (.inl ⟨p, g, rest, i, hi, hd, h⟩)
    · cases h
  · next p g rest hi =>
    split at h
    · next i hd => exact .inr (.inr (.inl ⟨p, g, rest, i, hi, hd, h⟩))
    · cases h
  · next rest hi => exact .inr (.inr (.inr (.inl ⟨rest, hi, by simpa [eq_comm] using h⟩)))
  · next x v rest hi =>
    exact .inr (.inr (.inr (.inr (.inl ⟨x, v, rest, hi, by simpa [eq_comm] using h⟩))))
  · next l rest hi =>
    exact .inr (.inr (.inr (.inr (.inr ⟨l, rest, hi, by simpa [eq_comm] using h⟩))))

end Sys2Proof.Machine
end

