-- ==== Sys2Proof/Laws/Exec.lean ====
section
/-! SUPPORT. What any command that answers can have done, and how the duties of `Safety.lean` meet the
model's own checks. -/

namespace Sys2Proof.Machine

/-- The host's duties on a buffer command's regions are what `BufCheck` passes. -/
theorem regionsLegal_iff_bufCheck {s : State} {src dst len : Nat} :
    RegionsLegal s src dst len ↔ bufCheck s.admission src dst len = none := by
  rw [bufCheck_eq_none, noWrap_iff, noWrap_iff, admitted_iff, admitted_iff, disjoint_iff]
  exact ⟨fun h => ⟨⟨h.1, h.2⟩, h.3, h.4, h.5⟩, fun h => ⟨h.1.1, h.1.2, h.2.1, h.2.2.1, h.2.2.2⟩⟩

/-- The host's duties on `INITB`'s key region are what `KeyCheck` passes. -/
theorem keyRegionLegal_iff_keyCheck {s : State} {kaddr : Nat} :
    KeyRegionLegal s kaddr ↔ keyCheck s.admission kaddr = none := by
  rw [keyCheck_eq_none, noWrap_iff, admitted_iff]
  exact ⟨fun h => ⟨h.fits, h.canRead⟩, fun h => ⟨h.1, h.2⟩⟩

/-- The four shapes of a command that answers: it constructs, it finishes, it holds the state, or it
processes a buffer. -/
theorem exec_cases {i : Instr} {s t : State} (h : exec i s = .next t) :
    (constructs i = true ∧ ∃ k0 k1, construct k0 k1 s = .next t) ∨
    (i = .finish ∧
      t = if s.ctxv then { freeRk (setCtxv false s) with response := some (packResponse .ok 0 0) }
          else { s with response := some (packResponse .ok 0 0) }) ∨
    (holdsState i = true ∧ ∃ r0 r1,
      t = { s with response := some (packResponse .ok r0 r1) } ∨
      (s.ctxv = true ∧ t = { freeWork s with response := some (packResponse .ok r0 r1) })) ∨
    (∃ f src dst len, bufferOperands i = some (src.toNat, dst.toNat, len.toNat) ∧
      processBuffer f src dst len s = .next t) := by
  cases i with
  | init var k0 k1 =>
    simp only [exec, execInit] at h
    split at h
    · exact .inl ⟨rfl, _, _, h⟩
    · cases h
  | initb kaddr =>
    simp only [exec, execInitb] at h
    split at h
    · cases h
    · exact .inl ⟨rfl, _, _, h⟩
  | finish =>
    simp only [exec, execFinish] at h
    split at h
    · next hc => exact .inr (.inl ⟨rfl, by rw [if_pos hc]; exact respond_eq_next.mp h⟩)
    · next hc => exact .inr (.inl ⟨rfl, by rw [if_neg hc]; exact respond_eq_next.mp h⟩)
  | encblk p0 p1 =>
    simp only [exec, execEncblk] at h
    split at h
    · next hc => exact .inr (.inr (.inl ⟨rfl, _, _, .inr ⟨hc, respond_eq_next.mp h⟩⟩))
    · cases h
  | decblk c0 c1 =>
    simp only [exec, execDecblk] at h
    split at h
    · next hc => exact .inr (.inr (.inl ⟨rfl, _, _, .inr ⟨hc, respond_eq_next.mp h⟩⟩))
    · cases h
  | rndf x y k => exact .inr (.inr (.inl ⟨rfl, _, _, .inl (respond_eq_next.mp h)⟩))
  | rndi x y k => exact .inr (.inr (.inl ⟨rfl, _, _, .inl (respond_eq_next.mp h)⟩))
  | encbuf src dst len => exact .inr (.inr (.inr ⟨_, _, _, _, rfl, h⟩))
  | decbuf src dst len => exact .inr (.inr (.inr ⟨_, _, _, _, rfl, h⟩))

/-- Every command that answers keeps memory in its canonical form. -/
theorem exec_keeps_memory_wf {i : Instr} {s t : State} (hw : Memory.wf s.mem = true)
    (h : exec i s = .next t) : Memory.wf t.mem = true := by
  rcases exec_cases h with ⟨_, k0, k1, h⟩ | ⟨_, rfl⟩ | ⟨_, r0, r1, h⟩ | ⟨f, src, dst, len, _, h⟩
  · rcases construct_cases h with ⟨_, rfl⟩ | ⟨_, _, rfl⟩ <;> exact hw
  · split <;> exact hw
  · rcases h with rfl | ⟨_, rfl⟩ <;> exact hw
  · obtain ⟨_, h⟩ := processBuffer_cases h
    rcases h with ⟨_, rfl⟩ | ⟨_, rfl⟩ | ⟨_, _, hb, rfl⟩
    · exact hw
    · exact hw
    · have := (regionsLegal_iff_bufCheck (s := s)).mpr hb
      exact processChunks_wf _ hw (by have := this.dstFits; omega)

/-- Two memories that agree on the bytes of a region give the same list from `MemRead`. -/
theorem memRead_congr {m m' : Memory} {a a' n : Nat}
    (h : ∀ j < n, Memory.read m (a + j) = Memory.read m' (a' + j)) : memRead m a n = memRead m' a' n := by
  simp only [memRead]
  exact List.map_congr_left fun j hj => h j (by simpa using hj)

end Sys2Proof.Machine
end

