-- ==== Sys2Proof/Laws/PerInstr.lean ====
section
/-! SUPPORT. Facts about each command as syntax, one lemma per constructor. -/

namespace Sys2Proof.Laws

/-- The operation code of a command (R64). -/
def opcodeOf : Instr → BitVec 8
  | .init _ _ _ => 0x01
  | .initb _ => 0x02
  | .encblk _ _ => 0x03
  | .decblk _ _ => 0x04
  | .encbuf _ _ _ => 0x05
  | .decbuf _ _ _ => 0x06
  | .finish => 0x07
  | .rndf _ _ _ => 0x08
  | .rndi _ _ _ => 0x09

/-- A well-formed command's packet has its row's `OP`, `RSV = 0`, and `VAR = 7` in `INIT`, zero in every
other command (R62, R63, R68). -/
def EncodeControl.Statement (i : Instr) : Prop :=
  i.wellFormed = true →
    fieldOp (encode i) = opcodeOf i ∧ fieldRsv (encode i) = 0 ∧
      fieldVar (encode i) = if opcodeOf i = 0x01 then 7 else 0

/-- A packet with a control lane of this form has these control fields. -/
theorem control_fields (a b c : Word) (var : BitVec 4) (op : BitVec 8) :
    fieldOp (lanes a b c (controlLane var op)) = op ∧
      fieldRsv (lanes a b c (controlLane var op)) = 0 ∧
      fieldVar (lanes a b c (controlLane var op)) = var := by
  have h := fieldControl_eq_controlLane.mp (fieldControl_lanes a b c (controlLane var op))
  exact ⟨h.1, h.2.2, h.2.1⟩

theorem EncodeControl.init (var : BitVec 4) (k0 k1 : Word) : EncodeControl.Statement (.init var k0 k1) := by
  intro h
  have hv : var = 7 := by simpa [Instr.wellFormed] using h
  subst hv
  exact control_fields 0 k1 k0 7 0x01

theorem EncodeControl.initb (kaddr : Word) : EncodeControl.Statement (.initb kaddr) :=
  fun _ => control_fields 0 0 kaddr 0 0x02

theorem EncodeControl.encblk (p0 p1 : Word) : EncodeControl.Statement (.encblk p0 p1) :=
  fun _ => control_fields 0 p1 p0 0 0x03

theorem EncodeControl.decblk (c0 c1 : Word) : EncodeControl.Statement (.decblk c0 c1) :=
  fun _ => control_fields 0 c1 c0 0 0x04

theorem EncodeControl.encbuf (src dst len : Word) : EncodeControl.Statement (.encbuf src dst len) :=
  fun _ => control_fields len dst src 0 0x05

theorem EncodeControl.decbuf (src dst len : Word) : EncodeControl.Statement (.decbuf src dst len) :=
  fun _ => control_fields len dst src 0 0x06

theorem EncodeControl.finish : EncodeControl.Statement .finish :=
  fun _ => control_fields 0 0 0 0 0x07

theorem EncodeControl.rndf (x y k : Word) : EncodeControl.Statement (.rndf x y k) :=
  fun _ => control_fields k y x 0 0x08

theorem EncodeControl.rndi (x y k : Word) : EncodeControl.Statement (.rndi x y k) :=
  fun _ => control_fields k y x 0 0x09

end Sys2Proof.Laws
end

