-- ==== Sys2Proof/Laws/Words.lean ====
section
/-! SUPPORT. The rotations undo each other. -/

namespace Sys2Proof.Machine

/-- `rotr64` undoes `rotl64` by the same amount (R92). -/
theorem rotr64_rotl64 (v : Word) {n : Nat} (hn : n < 64) : rotr64 (rotl64 v n) n = v := by
  apply BitVec.eq_of_getLsbD_eq
  intro i hi
  rw [rotr64, rotl64, BitVec.getLsbD_rotateRight, BitVec.getLsbD_rotateLeft,
    BitVec.getLsbD_rotateLeft, Nat.mod_eq_of_lt hn]
  by_cases h : i < 64 - n
  · simp [h, show ¬ n + i < n by omega, show n + i < 64 by omega]
  · simp [h, hi, show i - (64 - n) < n by omega, show 64 - n + (i - (64 - n)) = i by omega]

/-- `rotl64` undoes `rotr64` by the same amount (R92). -/
theorem rotl64_rotr64 (v : Word) {n : Nat} (hn : n < 64) : rotl64 (rotr64 v n) n = v := by
  apply BitVec.eq_of_getLsbD_eq
  intro i hi
  rw [rotr64, rotl64, BitVec.getLsbD_rotateLeft, BitVec.getLsbD_rotateRight,
    BitVec.getLsbD_rotateRight, Nat.mod_eq_of_lt hn]
  by_cases h : i < n
  · simp [h, hi, show ¬ 64 - n + i < 64 - n by omega, show 64 - n + i < 64 by omega]
  · simp [h, hi, show i - n < 64 - n by omega, show n + (i - n) = i by omega]

end Sys2Proof.Machine
end

