-- ==== Sys2Proof/Tests/Slice0.lean ====
section
/-! SUPPORT. The model's own tests. Expected values are the spec's: the packets of R78 and V40, the vectors of
spec/95_test_vectors.md, the examples of the instruction rules. -/

namespace Sys2Proof.Tests

open Sys2Proof.Machine

/-! ### Well-formedness and decoding -/

/-- The one check of `wellFormed`: `VAR != 7` is refused (R68). -/
theorem test_wellFormed_refuses_other_variant : (Instr.init 1 0 0).wellFormed = false := by decide
theorem test_wellFormed_accepts_variant_7 : (Instr.init 7 0 0).wellFormed = true := by decide

theorem test_decode_init :
    decode 0x0000000000000000_0f0e0d0c0b0a0908_0706050403020100_0000000000000701 =
      some (.init 7 0x0706050403020100 0x0f0e0d0c0b0a0908) := by decide
theorem test_decode_initb :
    decode 0x0000000000000000_0000000000000000_0000000000001000_0000000000000002 =
      some (.initb 0x1000) := by decide
theorem test_decode_encblk :
    decode 0x0000000000000000_6c61766975716520_7469206564616d20_0000000000000003 =
      some (.encblk 0x7469206564616d20 0x6c61766975716520) := by decide
theorem test_decode_decblk :
    decode 0x0000000000000000_a65d985179783265_7860fedf5c570d18_0000000000000004 =
      some (.decblk 0x7860fedf5c570d18 0xa65d985179783265) := by decide
theorem test_decode_encbuf :
    decode 0x0000000000000030_0000000000003003_0000000000002000_0000000000000005 =
      some (.encbuf 0x2000 0x3003 48) := by decide
theorem test_decode_decbuf :
    decode 0x0000000000000030_0000000000003003_0000000000003003_0000000000000006 =
      some (.decbuf 0x3003 0x3003 48) := by decide
theorem test_decode_finish :
    decode 0x0000000000000000_0000000000000000_0000000000000000_0000000000000007 = some .finish := by
  decide
theorem test_decode_rndf :
    decode 0x0000000000000000_0706050403020100_0f0e0d0c0b0a0908_0000000000000008 =
      some (.rndf 0x0f0e0d0c0b0a0908 0x0706050403020100 0) := by decide
theorem test_decode_rndi :
    decode 0x0706050403020100_309a87f4eddfb686_93d384dfced4df85_0000000000000009 =
      some (.rndi 0x93d384dfced4df85 0x309a87f4eddfb686 0x0706050403020100) := by decide

/-- The reserved packets of V40. -/
theorem test_decode_reserved :
    decode 0 = none ∧ decode 0x0a = none ∧ decode 0xff = none ∧
    decode 0x0000000000000000_0000000000000000_0000000000000001_0000000000000101 = none ∧
    decode 0x0000000000000000_0000000000000000_0000000000000001_0000000000000001 = none ∧
    decode 0x0000000000000001_0000000000000000_0000000000000000_0000000000000701 = none ∧
    decode 0x0000000000000000_0000000000000000_0000000000000000_0000000000000703 = none ∧
    decode 0x0000000000000001_0000000000000000_0000000000000000_0000000000000007 = none ∧
    decode 0x0000000000000000_0000000000000000_0000000000000000_0000000000001003 = none ∧
    decode 0x0000000000000000_0000000000000000_0000000000000000_8000000000000005 = none ∧
    decode 0x0000000000000000_0000000000000005_0000000000000000_0000000000000002 = none := by decide

/-- The packet of R78 for `ENCBUF 0x2000, 0x3000, 32`, from the encoder. -/
theorem test_encode_encbuf :
    encode (.encbuf 0x2000 0x3000 32) =
      0x0000000000000020_0000000000003000_0000000000002000_0000000000000005 := by decide

/-! ### The datapath -/

/-- V3. -/
theorem test_rotations :
    rotr64 0x0123456789abcdef 8 = 0xef0123456789abcd ∧ rotl64 0x0123456789abcdef 8 = 0x23456789abcdef01 ∧
    rotl64 0x0123456789abcdef 3 = 0x091a2b3c4d5e6f78 ∧ rotr64 0x0123456789abcdef 3 = 0xe02468acf13579bd := by
  decide
/-- V1, vectors 3, 5 and 7. -/
theorem test_roundF :
    roundF 0 1 0 = (1, 9) ∧ roundF 0xffffffffffffffff 1 0 = (0, 8) ∧
    roundF 0x0123456789abcdef 0xfedcba9876543210 0xdeadbeefcafef00d =
      (0x3370633217232dd0, 0xc595b7f1a582bd57) := by decide
/-- V2, vectors 2, 5 and 7. -/
theorem test_roundI :
    roundI 1 0 0 = (0x1e0, 0x2000000000000000) ∧
    roundI 0xffffffffffffffff 1 0 = (0x20, 0xdfffffffffffffff) ∧
    roundI 0x0123456789abcdef 0xfedcba9876543210 0xdeadbeefcafef00d =
      (0x8efb8843553de3df, 0xffffffffffffffff) := by decide
/-- The example of R43. -/
theorem test_blockFromBytes :
    blockFromBytes [0, 1, 2, 3, 4, 5, 6, 7, 8, 9, 0xa, 0xb, 0xc, 0xd, 0xe, 0xf] =
      (0x0706050403020100, 0x0f0e0d0c0b0a0908) := by decide
/-- The responses at the end of V40's table. -/
theorem test_packResponse :
    packResponse .ok 0x7860fedf5c570d18 0xa65d985179783265 =
      0xa65d985179783265_7860fedf5c570d18_0000000000000000 ∧
    packResponse .invalidLength 0 0 = 1 ∧ packResponse .allocationFailure 0 0 = 2 := by decide

/-! ### The key schedule and the cipher -/

/-- The schedule of V10's key. -/
def v10 : Vector Word 32 := keyExpand 0x0706050403020100 0x0f0e0d0c0b0a0908

/-- V10, first, second, a middle and the last subkey. -/
theorem test_keyExpand_v10 :
    v10[0] = 0x0706050403020100 ∧ v10[1] = 0x37253b31171d0309 ∧ v10[16] = 0x771ebffcbf05cb13 ∧
    v10[31] = 0x2199c870db8ec93f := by decide
/-- V14: `k1` starts in the x-role. -/
theorem test_keyExpand_v14 : (keyExpand 0 1)[1] = 0x0100000000000000 ∧ (keyExpand 0 1)[31] = 0xc3ba41fd22da1895 := by
  decide +kernel
/-- V20. -/
theorem test_encBlock_v20 :
    encBlock v10 0x7469206564616d20 0x6c61766975716520 = (0x7860fedf5c570d18, 0xa65d985179783265) := by
  decide +kernel
/-- The all-zero block decrypted under V10. -/
theorem test_decBlock_zero : decBlock v10 0 0 = (0xd52482a8070689dd, 0x63fe6fcb05ca317d) := by decide +kernel

/-! ### Commands on small states -/

/-- A state with V10's context. -/
def live : State := { State.reset with ctxv := true, rk := v10 }

/-- The bytes of V20's plaintext at `0x2000`, and of V10's key at `0x1001` (the byte `00` at `0x1000` is not
listed). -/
def mem0 : Memory :=
  [(0x1001, 0x01), (0x1002, 0x02), (0x1003, 0x03), (0x1004, 0x04), (0x1005, 0x05), (0x1006, 0x06),
    (0x1007, 0x07), (0x1008, 0x08), (0x1009, 0x09), (0x100a, 0x0a), (0x100b, 0x0b), (0x100c, 0x0c),
    (0x100d, 0x0d), (0x100e, 0x0e), (0x100f, 0x0f)] ++
  [(0x2000, 0x20), (0x2001, 0x6d), (0x2002, 0x61), (0x2003, 0x64), (0x2004, 0x65), (0x2005, 0x20),
    (0x2006, 0x69), (0x2007, 0x74), (0x2008, 0x20), (0x2009, 0x65), (0x200a, 0x71), (0x200b, 0x75),
    (0x200c, 0x69), (0x200d, 0x76), (0x200e, 0x61), (0x200f, 0x6c)]

/-- V10's context with that memory. -/
def liveMem : State := { live with mem := mem0 }

/-- A property of the next state, false of a fault or a refusal. -/
def after (r : Result) (p : State → Bool) : Bool :=
  match r with
  | .next t => p t
  | .fault _ => false
  | .refused _ => false

/-- A result that is this fault. -/
def faults (r : Result) (f : Fault) : Bool :=
  match r with
  | .next _ => false
  | .fault g => g == f
  | .refused _ => false

/-- A result that is this refusal. -/
def refuses (r : Result) (f : Refusal) : Bool :=
  match r with
  | .next _ => false
  | .fault _ => false
  | .refused g => g == f

/-- R103's example. -/
theorem test_init_makes_context :
    after (exec (.init 7 0x0706050403020100 0x0f0e0d0c0b0a0908) State.reset) (fun t =>
      t.ctxv && t.rk[31] == 0x2199c870db8ec93f && t.response == some 0) = true := by decide +kernel
/-- P3, row 2: the slot is taken, and the old schedule stays. -/
theorem test_init_on_live_context_fails :
    after (exec (.init 7 0 0) live) (fun t =>
      t.ctxv && t.rk[31] == 0x2199c870db8ec93f && t.response == some 2) = true := by decide +kernel
/-- P3, row 10: the allocator does not grant. -/
theorem test_init_not_granted_fails :
    after (exec (.init 7 0 0) { State.reset with allocGrant := false }) (fun t =>
      !t.ctxv && t.response == some 2) = true := by decide
/-- P2, row 1. -/
theorem test_initb_reads_key :
    after (exec (.initb 0x1000) { State.reset with mem := mem0 }) (fun t =>
      t.ctxv && t.rk[0] == 0x0706050403020100 && t.rk[31] == 0x2199c870db8ec93f) = true := by decide +kernel
/-- V34: `0xfffffffffffffff1` wraps; the allocation test is not reached (R152). -/
theorem test_initb_wrap_refused : refuses (exec (.initb 0xfffffffffffffff1) live) .addressWrap = true := by
  decide
/-- R117's example. -/
theorem test_encblk_v20 :
    after (exec (.encblk 0x7469206564616d20 0x6c61766975716520) live) (fun t =>
      t.response == some 0xa65d985179783265_7860fedf5c570d18_0000000000000000) = true := by decide +kernel
/-- P5, row 1. -/
theorem test_encblk_without_context_faults : faults (exec (.encblk 1 2) State.reset) .invalidContext = true := by
  decide
/-- R120's example. -/
theorem test_decblk_v20 :
    after (exec (.decblk 0x7860fedf5c570d18 0xa65d985179783265) live) (fun t =>
      t.response == some 0x6c61766975716520_7469206564616d20_0000000000000000) = true := by decide +kernel
/-- P5, row 3. -/
theorem test_decblk_without_context_faults : faults (exec (.decblk 0 0) State.reset) .invalidContext = true := by
  decide
/-- V30: the ciphertext bytes, and the input unchanged. -/
theorem test_encbuf_v30 :
    after (exec (.encbuf 0x2000 0x3000 16) liveMem) (fun t =>
      memRead t.mem 0x3000 16 ==
        [0x18, 0x0d, 0x57, 0x5c, 0xdf, 0xfe, 0x60, 0x78, 0x65, 0x32, 0x78, 0x79, 0x51, 0x98, 0x5d, 0xa6] &&
      Memory.read t.mem 0x2000 == 0x20 && Memory.read t.mem 0x3010 == 0) = true := by decide +kernel
/-- V31's third chunk: a zero chunk gives V21a's bytes; the last 16 bytes of the space do not wrap (P5). -/
theorem test_encbuf_top_of_memory :
    after (exec (.encbuf 0xfffffffffffffff0 0x2000 16) live) (fun t =>
      memRead t.mem 0x2000 16 ==
        [0x3d, 0xf1, 0xae, 0xb7, 0x75, 0x2d, 0xbb, 0x06, 0xc5, 0xde, 0xea, 0x14, 0x3d, 0xa6, 0xd6, 0x30]) = true := by
  decide +kernel
/-- The memory of V30 between its two commands. -/
def mem1 : Memory := memWrite [] 0x3000
  [0x18, 0x0d, 0x57, 0x5c, 0xdf, 0xfe, 0x60, 0x78, 0x65, 0x32, 0x78, 0x79, 0x51, 0x98, 0x5d, 0xa6]
/-- V30, the second command, in place (R135). -/
theorem test_decbuf_in_place :
    after (exec (.decbuf 0x3000 0x3000 16) { live with mem := mem1 }) (fun t =>
      memRead t.mem 0x3000 16 ==
        [0x20, 0x6d, 0x61, 0x64, 0x65, 0x20, 0x69, 0x74, 0x20, 0x65, 0x71, 0x75, 0x69, 0x76, 0x61, 0x6c]) = true := by
  decide +kernel
/-- P3, row 6: the length test precedes the wrap test. -/
theorem test_decbuf_invalid_length :
    after (exec (.decbuf 0x2000 0x3000 0xfffffffffffffff8) live) (fun t => t.response == some 1) = true := by
  decide
/-- V33 and V34: zero length, overlap by one byte, overlap with `DST` below, wraps. -/
theorem test_buffer_checks :
    after (exec (.encbuf 0x2000 0x2008 0) live) (fun t => t.response == some 0) = true ∧
    refuses (exec (.encbuf 0x2000 0x200f 16) live) .bufferOverlap = true ∧
    refuses (exec (.encbuf 0x2010 0x2000 32) live) .bufferOverlap = true ∧
    refuses (exec (.encbuf 0xfffffffffffffff8 0x2000 16) live) .addressWrap = true ∧
    refuses (exec (.encbuf 0x2000 0xfffffffffffffff0 32) live) .addressWrap = true ∧
    after (exec (.encbuf 0x2000 0x2010 16) live) (fun t => t.response == some 0) = true := by decide
/-- All of memory but the bytes `0x3005` on. -/
def partialAdmit : List Region := [⟨0, 0x3005, true, true⟩]
/-- P5, row 13. -/
theorem test_encbuf_not_admitted :
    refuses (exec (.encbuf 0x2000 0x3000 16) { live with admission := partialAdmit }) .memoryNotAdmitted = true := by
  decide
/-- P5, row 2: the context is tested before the length. -/
theorem test_encbuf_without_context_faults :
    faults (exec (.encbuf 0 0 15) State.reset) .invalidContext = true := by decide
/-- P1, row 4, and P3, row 9. -/
theorem test_finish :
    after (exec .finish live) (fun t => !t.ctxv && t.response == some 0) = true ∧
    after (exec .finish State.reset) (fun t => !t.ctxv && t.response == some 0) = true := by decide
/-- P4, rows 1 and 4. -/
theorem test_rndf_p4 :
    after (exec (.rndf 0x0f0e0d0c0b0a0908 0x0706050403020100 0) State.reset) (fun t =>
      t.response == some 0x37253b31171d0309_0f1513110f0d0b09_0000000000000000) = true := by decide
theorem test_rndi_p4 :
    after (exec (.rndi 0x93d384dfced4df85 0x309a87f4eddfb686 0x0706050403020100) State.reset) (fun t =>
      t.response == some 0x7469206564616d20_6c61766975716520_0000000000000000) = true := by decide

/-! ### Steps -/

/-- The command of P1, row 1, as the first step after reset. -/
theorem test_step_runs_first_command :
    after (step (State.reset.withFetchWord 256
      0x0000000000000000_0f0e0d0c0b0a0908_0706050403020100_0000000000000701)) (fun t =>
      t.ctxv && t.inputs == []) = true := by decide
/-- P5, row 12: `FINISH` with `C = 1`. -/
theorem test_step_reserved_faults :
    faults (step (live.withFetchWord 256
      0x0000000000000001_0000000000000000_0000000000000000_0000000000000007)) .reservedEncoding = true := by
  decide
/-- R166: reset ends the context and keeps memory. -/
theorem test_step_reset :
    after (step { liveMem with inputs := [.reset], response := some 0 }) (fun t =>
      !t.ctxv && t.response == none && t.mem == mem0) = true := by decide
/-- R49: a host's byte reads back; writing `00` takes the entry out again. -/
theorem test_step_host_write :
    after (step { State.reset with inputs := [.hostWrite 0xffffffffffffffff 0xab] }) (fun t =>
      t.mem == [(0xffffffffffffffff, 0xab)]) = true ∧
    after (step { State.reset with mem := [(5, 1)], inputs := [.hostWrite 5 0] }) (fun t =>
      t.mem == []) = true := by decide
/-- R167: a construction abandoned in flight leaves no context and no response. -/
theorem test_step_abandoned_init :
    after (step { State.reset with inputs := [.abandoned (encode (.init 7 1 2)) true] }) (fun t =>
      !t.ctxv && t.response == none) = true := by decide

/-! ### Witnesses

For every statement of Certificates/Slice0/Obligations.lean with hypotheses, a state and operands that meet them
together; one for each clause. -/

/-- A result with a property of its next state has a next state. -/
theorem next_of_after {r : Result} {p : State → Bool} (h : after r p = true) : ∃ t, r = .next t ∧ p t = true := by
  cases r with
  | next t => exact ⟨t, rfl, h⟩
  | fault _ => cases h
  | refused _ => cases h

/-- A state in which this event is next. -/
def awaiting (s : State) (e : Input) : State := { s with inputs := [e] }

theorem witness_DecodeEncodeEveryCommand :
    (Instr.init 7 (-1) (-1)).wellFormed = true ∧ (Instr.initb (-1)).wellFormed = true ∧
    (Instr.encblk (-1) (-1)).wellFormed = true ∧ (Instr.decblk (-1) (-1)).wellFormed = true ∧
    (Instr.encbuf (-1) (-1) (-1)).wellFormed = true ∧ (Instr.decbuf (-1) (-1) (-1)).wellFormed = true ∧
    Instr.finish.wellFormed = true ∧ (Instr.rndf (-1) (-1) (-1)).wellFormed = true ∧
    (Instr.rndi (-1) (-1) (-1)).wellFormed = true := by decide

theorem witness_EncodeDecodeEveryPacket :
    decode 0xffffffffffffffff_ffffffffffffffff_ffffffffffffffff_0000000000000009 = some (.rndi (-1) (-1) (-1)) := by
  decide

/-- One packet for each way to be reserved, and a state it is next in. -/
theorem witness_ReservedEncodingsFault :
    fieldOp 0x00 = 0x00 ∧ 0x0A ≤ (fieldOp 0x0A).toNat ∧ fieldRsv 0x1003 ≠ 0 ∧
    (fieldOp 0x0801 = 0x01 ∧ fieldVar 0x0801 ≠ 7) ∧ (fieldOp 0x0702 ≠ 0x01 ∧ fieldVar 0x0702 ≠ 0) ∧
    (fieldOp (lanes 1 0 0 0x0701) = 0x01 ∧ fieldC (lanes 1 0 0 0x0701) ≠ 0) ∧
    (fieldOp (lanes 0 1 0 0x02) = 0x02 ∧ fieldB (lanes 0 1 0 0x02) ≠ 0) ∧
    (fieldOp (lanes 0 0 1 0x07) = 0x07 ∧ fieldA (lanes 0 0 1 0x07) ≠ 0) ∧
    decode 0x00 = none ∧ decode 0x0A = none ∧ decode 0x09 ≠ none ∧
    (awaiting State.reset (.command 0x0A true)).inputs = .command 0x0A true :: [] := by decide

theorem witness_AtMostOneRowMatches :
    ∃ r ∈ opcodeRows, rowMatches 0x07 r = true :=
  ⟨⟨.finish, lanes onesLane onesLane onesLane onesLane, lanes 0 0 0 0x0007⟩, by decide, by decide⟩

theorem witness_StepRunsDecodedCommand :
    (awaiting live (.command 0x07 true)).inputs = .command 0x07 true :: [] ∧ decode 0x07 = some .finish := by
  decide

/-- The hypotheses of `IdleEngineHoldsState`, `ResetEventEndsContext`, `HostWriteChangesOneByte` and
`SetAdmitReplacesAdmission`. -/
theorem witness_events :
    State.reset.inputs = [] ∧ (awaiting live .reset).inputs = .reset :: [] ∧
    Memory.wf (awaiting liveMem (.hostWrite (-1) 0)).mem = true ∧
    (awaiting liveMem (.hostWrite (-1) 0)).inputs = .hostWrite (-1) 0 :: [] ∧
    (awaiting live (.setAdmit [])).inputs = .setAdmit [] :: [] := by decide

/-- An abandoned `FINISH`. -/
theorem witness_AbandonedCommandLeavesOldOrNew :
    ∃ t, Memory.wf liveMem.mem = true ∧ decode (encode .finish) = some .finish ∧
      exec .finish { awaiting liveMem (.abandoned (encode .finish) true) with inputs := [], allocGrant := true } =
        .next t ∧ bufferOperands .finish = none :=
  let ⟨t, h, _⟩ := next_of_after (p := fun _ => true) (by decide)
  ⟨t, by decide, by decide, h, by decide⟩

/-- An abandoned `ENCBUF`. -/
theorem witness_AbandonedCommandLeavesOldOrNew_buffer :
    ∃ t, Memory.wf liveMem.mem = true ∧
      decode (encode (.encbuf 0x2000 0x3000 16)) = some (.encbuf 0x2000 0x3000 16) ∧
      exec (.encbuf 0x2000 0x3000 16) { liveMem with inputs := [], allocGrant := true } = .next t ∧
      bufferOperands (.encbuf 0x2000 0x3000 16) = some (0x2000, 0x3000, 16) :=
  let ⟨t, h, _⟩ := next_of_after (p := fun _ => true) (by decide)
  ⟨t, by decide, by decide, h, by decide⟩

/-- `VAR` on both sides of 7; failure by a taken slot and by no grant; success. -/
theorem witness_InitConstructsContext :
    (6 : BitVec 4) ≠ 7 ∧ (8 : BitVec 4) ≠ 7 ∧ live.ctxv = true ∧ ({ live with allocGrant := false } : State).ctxv = true ∧
    ({ State.reset with allocGrant := false } : State).allocGrant = false ∧
    State.reset.ctxv = false ∧ State.reset.allocGrant = true := by decide

/-- A construction that fails and one that succeeds. -/
theorem witness_AllocationFailsExactlyWhenNotGranted :
    (∃ t, constructs (.init 7 0 0) = true ∧ exec (.init 7 0 0) live = .next t ∧ live.ctxv = true) ∧
    ∃ t, constructs (.initb 0) = true ∧ exec (.initb 0) State.reset = .next t ∧
      State.reset.ctxv = false ∧ State.reset.allocGrant = true :=
  let ⟨t, h, _⟩ := next_of_after (p := fun _ => true) (r := exec (.init 7 0 0) live) (by decide)
  let ⟨u, h', _⟩ := next_of_after (p := fun _ => true) (r := exec (.initb 0) State.reset) (by decide)
  ⟨⟨t, rfl, h, rfl⟩, u, rfl, h', rfl, rfl⟩

/-- The highest legal key address (R105), with no context and with one; also the hypothesis of
`InitbEqualsInitOnMemoryWords`. -/
theorem witness_InitbConstructsContextFromMemory_legal :
    KeyRegionLegal State.reset (0xfffffffffffffff0 : Word).toNat ∧ KeyRegionLegal live (0xfffffffffffffff0 : Word).toNat ∧
    State.reset.ctxv = false ∧ State.reset.allocGrant = true ∧ live.ctxv = true :=
  ⟨⟨by decide, by decide⟩, ⟨by decide, by decide⟩, rfl, rfl, rfl⟩

/-- `2^64 - 15` wraps; the last byte of a key region is not admitted. -/
theorem witness_InitbConstructsContextFromMemory_refused :
    2 ^ 64 < (0xfffffffffffffff1 : Word).toNat + 16 ∧ (0xfffffffffffffff0 : Word).toNat + 16 ≤ 2 ^ 64 ∧
    ∃ j < 16, admits ({ live with admission := [⟨0, 2 ^ 64 - 1, true, true⟩] } : State).admission
      ((0xfffffffffffffff0 : Word).toNat + j) .read = false :=
  ⟨by decide, by decide, 15, by decide, by decide⟩

/-- One command for each row of R109 that answers. -/
theorem witness_LifecycleOfContextBit :
    (∃ t, exec (.init 7 1 2) State.reset = .next t) ∧ (∃ t, exec .finish live = .next t) ∧
    ∃ t, exec (.rndf 1 2 3) live = .next t :=
  ⟨⟨_, rfl⟩, ⟨_, rfl⟩, _, rfl⟩

/-- One command for each clause of `TransientRegistersChangeOnlyWhereUsed`. -/
theorem witness_TransientRegistersChangeOnlyWhereUsed :
    (∃ t, exec .finish live = .next t) ∧ (∃ t, exec (.rndi 1 2 3) live = .next t) ∧
    (∃ t, exec (.init 7 1 2) live = .next t ∧ constructs (.init 7 1 2) = true ∧ live.ctxv = true) ∧
    (∃ t, exec (.encbuf 1 2 17) live = .next t ∧ BadLength (.encbuf 1 2 17)) ∧
    (∃ t, exec (.decbuf 1 2 0) live = .next t ∧ ZeroLength (.decbuf 1 2 0)) ∧
    ∃ t, exec (.encblk 1 2) live = .next t ∧ bufferOperands (.encblk 1 2) = none :=
  ⟨⟨_, rfl⟩, ⟨_, rfl⟩, ⟨_, rfl, rfl, rfl⟩, ⟨_, rfl, _, _, _, rfl, by decide⟩, ⟨_, rfl, _, _, rfl⟩, _, rfl, rfl⟩

theorem witness_SubkeysImmutableWhileContextLives :
    ∃ t, exec (.init 7 1 2) State.reset = .next t ∧ t.rk ≠ State.reset.rk :=
  let ⟨t, h, h'⟩ := next_of_after (p := fun t => decide (t.rk ≠ State.reset.rk)) (by decide +kernel)
  ⟨t, h, of_decide_eq_true h'⟩

/-- With no context and with one: `EncblkAnswersCiphertext`, `DecblkAnswersPlaintext`,
`DecblkUndoesEncblkAtPort`. -/
theorem witness_block_context : State.reset.ctxv = false ∧ live.ctxv = true := by decide

theorem witness_NoContextIsInvalidContext :
    needsContext (.encblk 0 0) = true ∧ needsContext (.decblk 0 0) = true ∧ needsContext (.encbuf 0 0 15) = true ∧
    needsContext (.decbuf 0 0 0) = true ∧ State.reset.ctxv = false := by decide

theorem witness_StatelessCommandsCommute :
    ∃ t u t' u', holdsState (.encblk 1 2) = true ∧ holdsState (.rndi 3 4 5) = true ∧
      exec (.encblk 1 2) live = .next t ∧ exec (.rndi 3 4 5) t = .next u ∧
      exec (.rndi 3 4 5) live = .next t' ∧ exec (.encblk 1 2) t' = .next u' :=
  ⟨_, _, _, _, rfl, rfl, rfl, rfl, rfl, rfl⟩

/-- A region that ends at the top of memory. -/
theorem witness_MemWriteSetsItsBytesOnly :
    Memory.wf mem0 = true ∧ 0xfffffffffffffff0 + (List.replicate 16 (0xab : Byte)).length ≤ 2 ^ 64 ∧
    (15 < (List.replicate 16 (0xab : Byte)).length) ∧ 0xffffffffffffffef < 0xfffffffffffffff0 := by decide

/-- `RotationBitMaps` and `BlockByteConversionsInverse`. -/
theorem witness_bits_and_bytes : 63 < 64 ∧ (List.replicate 16 (0xab : Byte)).length = 16 := by decide

theorem witness_KeyExpandDeterminesKey : keyExpand 1 2 = keyExpand 1 2 := rfl

/-- The lengths next to 0 and 16 (R127). -/
theorem witness_InvalidLengthIsRejected :
    live.ctxv = true ∧ (1 : Word).toNat % 16 ≠ 0 ∧ (15 : Word).toNat % 16 ≠ 0 ∧ (17 : Word).toNat % 16 ≠ 0 ∧
    (-1 : Word).toNat % 16 ≠ 0 := by decide

theorem witness_ZeroLengthIsAccepted :
    ∃ i : Instr, (i = .encbuf (-1) (-1) 0 ∨ i = .decbuf (-1) (-1) 0) ∧ live.ctxv = true ∧
      State.reset.ctxv = false :=
  ⟨_, .inl rfl, rfl, rfl⟩

/-- The bounds of each clause: a wrap by one byte past the last legal start; an overlap of one byte against
adjacent regions; one byte not admitted. The clause on `INITB`:
`witness_InitbConstructsContextFromMemory_refused`. -/
theorem witness_RegionChecksRefuseInOrder :
    live.ctxv = true ∧ (16 : Word).toNat % 16 = 0 ∧ (16 : Word).toNat ≠ 0 ∧
    2 ^ 64 < (0xfffffffffffffff1 : Word).toNat + (16 : Word).toNat ∧
    (0xfffffffffffffff0 : Word).toNat + (16 : Word).toNat ≤ 2 ^ 64 ∧
    ((0x2000 : Word) ≠ 0x200f ∧ (0x2000 : Word).toNat < (0x200f : Word).toNat + (16 : Word).toNat ∧
      (0x200f : Word).toNat < (0x2000 : Word).toNat + (16 : Word).toNat) ∧
    (0x2000 : Word).toNat + (16 : Word).toNat ≤ (0x2010 : Word).toNat ∧
    ∃ j < (16 : Word).toNat, admits partialAdmit ((0x2ff0 : Word).toNat + j) .read = false ∨
      admits partialAdmit ((0x3000 : Word).toNat + j) .write = false :=
  ⟨rfl, by decide, by decide, by decide, by decide, by decide,
    by decide, 5, by decide, .inr (by decide)⟩

/-- Adjacent regions, and one region in place at the top of memory: `EncbufEqualsBlockwiseEncryption` and
`DecbufEqualsBlockwiseDecryption`. -/
theorem witness_regions_legal :
    Memory.wf liveMem.mem = true ∧ liveMem.ctxv = true ∧ (32 : Word).toNat % 16 = 0 ∧ (32 : Word).toNat ≠ 0 ∧
    RegionsLegal liveMem (0x2000 : Word).toNat (0x2020 : Word).toNat (32 : Word).toNat ∧
    RegionsLegal liveMem (0xffffffffffffffe0 : Word).toNat (0xffffffffffffffe0 : Word).toNat (32 : Word).toNat :=
  ⟨by decide, rfl, by decide, by decide,
    ⟨by decide, by decide, by decide, by decide, by decide⟩,
    ⟨by decide, by decide, by decide, by decide, by decide⟩⟩

/-- A response that says `OK`, as a test. -/
def isOk (t : State) : Bool := t.response == some (packResponse .ok 0 0)

/-- A response that says `OK`. -/
theorem ok_of_isOk {t : State} (h : isOk t = true) : t.response = some (packResponse .ok 0 0) := eq_of_beq h

theorem witness_BufferRoundTrip :
    ∃ t u, Memory.wf liveMem.mem = true ∧ Memory.wf t.mem = true ∧
      exec (.encbuf 0x2000 0x3000 16) liveMem = .next t ∧ t.response = some (packResponse .ok 0 0) ∧
      exec (.decbuf 0x3000 0x4000 16) t = .next u ∧ u.response = some (packResponse .ok 0 0) := by
  obtain ⟨t, h, h'⟩ := next_of_after (r := exec (.encbuf 0x2000 0x3000 16) liveMem)
    (p := fun t => isOk t && Memory.wf t.mem && after (exec (.decbuf 0x3000 0x4000 16) t) isOk) (by decide +kernel)
  simp only [Bool.and_eq_true] at h'
  obtain ⟨u, g, g'⟩ := next_of_after h'.2
  exact ⟨t, u, by decide, h'.1.2, h, ok_of_isOk h'.1.1, g, ok_of_isOk g'⟩

/-- Two chunks of zeros in one run; for `EqualChunksGiveEqualChunks` and, with the second conjunct,
`InPlaceEqualsDisjoint`. -/
theorem witness_EqualChunksGiveEqualChunks :
    ∃ t, Memory.wf liveMem.mem = true ∧
      exec (.encbuf 0x5000 0x5000 32) liveMem = .next t ∧ t.response = some (packResponse .ok 0 0) ∧
      0 < (32 : Word).toNat / 16 ∧ 1 < (32 : Word).toNat / 16 ∧
      memRead liveMem.mem ((0x5000 : Word).toNat + 16 * 0) 16 =
        memRead liveMem.mem ((0x5000 : Word).toNat + 16 * 1) 16 :=
  let ⟨t, h, h'⟩ := next_of_after (p := isOk) (by decide)
  ⟨t, by decide, h, ok_of_isOk h', by decide, by decide, by decide⟩

theorem witness_InPlaceEqualsDisjoint :
    Memory.wf liveMem.mem = true ∧
    (∃ t t', exec (.encbuf 0x2000 0x2000 16) liveMem = .next t ∧ exec (.encbuf 0x2000 0x2010 16) liveMem = .next t' ∧
      t.response = some (packResponse .ok 0 0) ∧ t'.response = some (packResponse .ok 0 0)) ∧
    ∃ t t', exec (.decbuf 0x2000 0x2000 16) liveMem = .next t ∧ exec (.decbuf 0x2000 0x2010 16) liveMem = .next t' ∧
      t.response = some (packResponse .ok 0 0) ∧ t'.response = some (packResponse .ok 0 0) :=
  let ⟨t, h, g⟩ := next_of_after (p := isOk) (by decide)
  let ⟨t', h', g'⟩ := next_of_after (p := isOk) (by decide)
  let ⟨u, k, l⟩ := next_of_after (p := isOk) (by decide)
  let ⟨u', k', l'⟩ := next_of_after (p := isOk) (by decide)
  ⟨by decide, ⟨t, t', h, h', ok_of_isOk g, ok_of_isOk g'⟩, u, u', k, k', ok_of_isOk l, ok_of_isOk l'⟩

/-- A buffer command that answers: `BufferCommandsKeepContext`, and the second clause of
`OnlyBufferCommandsWriteMemory`; its first clause by `RNDF`. -/
theorem witness_OnlyBufferCommandsWriteMemory :
    (∃ t, bufferOperands (.decbuf 0x2000 0x2000 16) = some (0x2000, 0x2000, 16) ∧ Memory.wf liveMem.mem = true ∧
      exec (.decbuf 0x2000 0x2000 16) liveMem = .next t) ∧
    ∃ t, bufferOperands (.rndf 1 2 3) = none ∧ exec (.rndf 1 2 3) liveMem = .next t :=
  let ⟨t, h, _⟩ := next_of_after (p := fun _ => true) (by decide)
  ⟨⟨t, by decide, by decide, h⟩, _, rfl, rfl⟩

/-- The two error statuses. -/
theorem witness_ErrorStatusChangesNothing :
    (∃ t, exec (.init 7 0 0) live = .next t ∧ t.response = some (packResponse .allocationFailure 0 0) ∧
      responseStatus (packResponse .allocationFailure 0 0) ≠ 0) ∧
    ∃ t, exec (.encbuf 0 0 15) live = .next t ∧ t.response = some (packResponse .invalidLength 0 0) ∧
      responseStatus (packResponse .invalidLength 0 0) ≠ 0 :=
  ⟨⟨_, rfl, rfl, by decide⟩, _, rfl, rfl, by decide⟩

/-- A command of each class that answers. -/
theorem witness_StatusesOfEachCommand :
    (∃ t, constructs (.init 7 1 2) = true ∧ exec (.init 7 1 2) State.reset = .next t) ∧
    (∃ t, bufferOperands (.encbuf 0 0 0) ≠ none ∧ exec (.encbuf 0 0 0) live = .next t) ∧
    (∃ t, exec .finish live = .next t) ∧
    ∃ t, holdsState (.decblk 1 2) = true ∧ exec (.decblk 1 2) live = .next t :=
  ⟨⟨_, rfl, rfl⟩, ⟨_, by decide, rfl⟩, ⟨_, rfl⟩, _, rfl, rfl⟩

/-- A reserved packet and one that decodes. -/
theorem witness_FirstConditionGivesEnding :
    (awaiting live (.command 0 true)).inputs = .command 0 true :: [] ∧ decode 0 = none ∧
    (awaiting live (.command 0x03 true)).inputs = .command 0x03 true :: [] ∧ decode 0x03 = some (.encblk 0 0) := by
  decide

/-- A state with a context, a listed memory and a response, that steps. -/
theorem witness_EveryStepKeepsInvariant :
    ∃ t, Inv { awaiting liveMem (.command 0x07 true) with response := some (packResponse .ok 1 2) } ∧
      step { awaiting liveMem (.command 0x07 true) with response := some (packResponse .ok 1 2) } = .next t :=
  let ⟨t, h, _⟩ := next_of_after (p := fun _ => true) (by decide)
  ⟨t, ⟨by decide, fun _ => ⟨_, _, rfl⟩, fun p hp => by
    cases hp; exact ⟨by decide, .inl (by decide)⟩⟩, h⟩

/-- Two states that differ in all a host cannot see, with no context. -/
theorem witness_UnspecifiedStateIsUnobservable :
    SameVisible (awaiting State.reset (.command 0x08 true))
      { awaiting State.reset (.command 0x08 true) with rk := v10, w0 := 1, w1 := 2, rnd := 3, chk := 4, fresh := 5 } ∧
    ∀ p grant rest, (awaiting State.reset (.command 0x08 true)).inputs ≠ .abandoned p grant :: rest :=
  ⟨⟨rfl, by decide, rfl, rfl, rfl, rfl, rfl⟩, fun _ _ _ h => by cases h⟩

end Sys2Proof.Tests
end

section
/-! PROOFS. The state: what any command makes of the context, the response and the transient registers; the
invariant of every step; and that no result depends on unspecified state (spec/10_state.md). -/

namespace Sys2Proof.Machine

/-! ### What a command that answers does, by its class -/

theorem bufferOperands_of_constructs {i : Instr} (h : constructs i = true) : bufferOperands i = none :=
  match i, h with
  | .init _ _ _, _ => rfl
  | .initb _, _ => rfl

theorem bufferOperands_of_holdsState {i : Instr} (h : holdsState i = true) : bufferOperands i = none :=
  match i, h with
  | .encblk _ _, _ => rfl
  | .decblk _ _, _ => rfl
  | .rndf _ _ _, _ => rfl
  | .rndi _ _ _, _ => rfl

theorem constructs_of_holdsState {i : Instr} (h : holdsState i = true) : constructs i = false :=
  match i, h with
  | .encblk _ _, _ => rfl
  | .decblk _ _, _ => rfl
  | .rndf _ _ _, _ => rfl
  | .rndi _ _ _, _ => rfl

/-- A constructing command that answers is a `construct` (R105). -/
theorem construct_of_exec {i : Instr} {s t : State} (hc : constructs i = true) (h : exec i s = .next t) :
    ∃ k0 k1, construct k0 k1 s = .next t := by
  obtain ⟨-, hk⟩ | ⟨rfl, -⟩ | ⟨hs, -⟩ | ⟨_, _, _, _, hb, -⟩ := exec_cases h
  · exact hk
  · cases hc
  · simp [constructs_of_holdsState hs] at hc
  · simp [bufferOperands_of_constructs hc] at hb

/-- A buffer command that answers is a `processBuffer` on its operands (R130). -/
theorem processBuffer_of_exec {i : Instr} {s t : State} {src dst len : Nat}
    (hb : bufferOperands i = some (src, dst, len)) (h : exec i s = .next t) :
    ∃ f, ∃ a b n : Word, a.toNat = src ∧ b.toNat = dst ∧ n.toNat = len ∧ processBuffer f a b n s = .next t := by
  obtain ⟨hc, -⟩ | ⟨rfl, -⟩ | ⟨hs, -⟩ | ⟨f, a, b, n, hb', hp⟩ := exec_cases h
  · simp [bufferOperands_of_constructs hc] at hb
  · cases hb
  · simp [bufferOperands_of_holdsState hs] at hb
  · obtain ⟨ha, hb, hn⟩ : a.toNat = src ∧ b.toNat = dst ∧ n.toNat = len := by simpa [hb'] using hb
    exact ⟨f, a, b, n, ha, hb, hn, hp⟩

/-- A command that answers keeps the context, or constructs one, or releases one (R109). -/
theorem exec_context_cases {i : Instr} {s t : State} (h : exec i s = .next t) :
    KeepsContext s t ∨
    (constructs i = true ∧ s.ctxv = false ∧ s.allocGrant = true ∧ t.ctxv = true ∧
      ∃ k0 k1, t.rk = keyExpand k0 k1) ∨
    (i = .finish ∧ s.ctxv = true ∧ t.ctxv = false) := by
  obtain ⟨hc, k0, k1, hk⟩ | ⟨hf, ht⟩ | ⟨-, r0, r1, ht⟩ | ⟨f, src, dst, len, -, hp⟩ := exec_cases h
  · obtain ⟨-, rfl⟩ | ⟨hctx, hgrant, rfl⟩ := construct_cases hk
    · exact .inl ⟨rfl, rfl⟩
    · exact .inr (.inl ⟨hc, hctx, hgrant, rfl, k0, k1, rfl⟩)
  · split at ht
    · next hctx => exact .inr (.inr ⟨hf, hctx, by rw [ht]; rfl⟩)
    · exact .inl ⟨by rw [ht], by rw [ht]⟩
  · obtain rfl | ⟨-, rfl⟩ := ht <;> exact .inl ⟨rfl, rfl⟩
  · obtain ⟨-, ⟨-, rfl⟩ | ⟨-, rfl⟩ | ⟨-, -, -, rfl⟩⟩ := processBuffer_cases hp <;> exact .inl ⟨rfl, rfl⟩

/-- Every command that answers leaves a packed response on the port (R140). -/
theorem exec_response {i : Instr} {s t : State} (h : exec i s = .next t) :
    ∃ st r0 r1, t.response = some (packResponse st r0 r1) := by
  obtain ⟨-, k0, k1, hk⟩ | ⟨-, rfl⟩ | ⟨-, r0, r1, ht⟩ | ⟨f, src, dst, len, -, hp⟩ := exec_cases h
  · obtain ⟨-, rfl⟩ | ⟨-, -, rfl⟩ := construct_cases hk <;> exact ⟨_, _, _, rfl⟩
  · split <;> exact ⟨_, _, _, rfl⟩
  · obtain rfl | ⟨-, rfl⟩ := ht <;> exact ⟨_, _, _, rfl⟩
  · obtain ⟨-, ⟨-, rfl⟩ | ⟨-, rfl⟩ | ⟨-, -, -, rfl⟩⟩ := processBuffer_cases hp <;> exact ⟨_, _, _, rfl⟩

/-! ### The response packet -/

/-- Every bit of a response packet (R72). -/
theorem packResponse_getLsbD (st : Status) (r0 r1 : Word) (i : Nat) :
    (packResponse st r0 r1).getLsbD i =
      if i < 8 then (statusCode st).getLsbD i
      else if i < 64 then false
      else if i < 128 then r0.getLsbD (i - 64)
      else r1.getLsbD (i - 128) := by
  have h : (packResponse st r0 r1).getLsbD i =
      BitVec.getLsbD (r1 ++ r0 ++ (0 : BitVec 56) ++ statusCode st : BitVec (64 + 64 + 56 + 8)) i := rfl
  rw [h]
  simp only [BitVec.getLsbD_append]
  rw [show i - 8 - 56 - 64 = i - 128 by omega, show i - 8 - 56 = i - 64 by omega]
  have hz : i - 8 < 56 ↔ i < 64 := by omega
  have h0 : i - 64 < 64 ↔ i < 128 := by omega
  by_cases h1 : i < 8
  · simp [h1]
  · by_cases h2 : i < 64
    · simp [h1, hz, h2]
    · simp [h1, hz, h2, h0]

@[simp] theorem responseStatus_packResponse (st : Status) (r0 r1 : Word) :
    responseStatus (packResponse st r0 r1) = statusCode st := by
  apply BitVec.eq_of_getLsbD_eq
  intro i hi
  simp [responseStatus, packResponse_getLsbD, hi]

@[simp] theorem responseZero_packResponse (st : Status) (r0 r1 : Word) :
    responseZero (packResponse st r0 r1) = 0 := by
  apply BitVec.eq_of_getLsbD_eq
  intro i hi
  have h1 : 8 + i < 64 := by omega
  simp [responseZero, packResponse_getLsbD, h1]

/-- Every packed response is legal (R72, R73). -/
theorem responseLegal_packResponse (st : Status) (r0 r1 : Word) : ResponseLegal (packResponse st r0 r1) := by
  refine ⟨responseZero_packResponse st r0 r1, ?_⟩
  rw [responseStatus_packResponse]
  cases st <;> simp [statusCode]

/-! ### The invariant -/

/-- Only `ENCBUF` and `DECBUF` of a legal length store, and they store to `DST` (R41, R127). -/
theorem storeRegion_of_bufferOperands {i : Instr} {src dst len : Nat}
    (h : bufferOperands i = some (src, dst, len)) :
    storeRegion i = if len % 16 = 0 then (dst, len) else (0, 0) := by
  cases i with
  | encbuf src dst len => cases h; rfl
  | decbuf src dst len => cases h; rfl
  | _ => cases h

theorem storeRegion_of_no_bufferOperands {i : Instr} (h : bufferOperands i = none) : storeRegion i = (0, 0) := by
  cases i with
  | encbuf src dst len => cases h
  | decbuf src dst len => cases h
  | _ => rfl

/-- The store region of a command that answers lies in the address space (R59). -/
theorem storeRegion_fits {i : Instr} {s t : State} (h : exec i s = .next t) :
    (storeRegion i).1 + (storeRegion i).2 ≤ 2 ^ 64 := by
  cases hb : bufferOperands i with
  | none => simp [storeRegion_of_no_bufferOperands hb]
  | some r =>
    obtain ⟨src, dst, len⟩ := r
    obtain ⟨f, a, b, n, rfl, rfl, rfl, hp⟩ := processBuffer_of_exec hb h
    rw [storeRegion_of_bufferOperands hb]
    obtain ⟨-, ⟨hl, -⟩ | ⟨hz, -⟩ | ⟨hl, -, hck, -⟩⟩ := processBuffer_cases hp
    · simp [hl]
    · simpa [hz] using b.isLt.le
    · simpa [hl] using (regionsLegal_iff_bufCheck.mpr hck).dstFits

theorem exec_keeps_inv {i : Instr} {s t : State} (hs : Inv s) (h : exec i s = .next t) : Inv t where
  memory := exec_keeps_memory_wf hs.memory h
  schedule := fun ht => by
    obtain hk | ⟨-, -, -, -, hkey⟩ | ⟨-, -, hno⟩ := exec_context_cases h
    · rw [hk.rk]
      exact hs.schedule (hk.ctxv ▸ ht)
    · exact hkey
    · simp [hno] at ht
  response := fun p hp => by
    obtain ⟨st, r0, r1, hr⟩ := exec_response h
    obtain rfl : packResponse st r0 r1 = p := by simpa [hr] using hp
    exact responseLegal_packResponse st r0 r1

/-- After the reset event only memory is left to ask about: no context, no response (R166). -/
theorem resetEngine_inv {s : State} (hm : Memory.wf s.mem = true) : Inv (resetEngine s) where
  memory := hm
  schedule := nofun
  response := nofun

theorem hostWriteByte_inv (x : Word) (v : Byte) {s : State} (hs : Inv s) : Inv (hostWriteByte x v s) where
  memory := hostWriteByte_wf x v hs.memory
  schedule := hs.schedule
  response := hs.response

/-- An abandoned command that would have answered keeps the invariant (R167). -/
theorem abandon_keeps_inv {i : Instr} {s u : State} (hs : Inv s) (h : abandon i s (exec i s) = .next u) :
    Inv u := by
  obtain ⟨t, ht, rfl⟩ := abandon_eq_next h
  exact resetEngine_inv (mixBytes_wf t.mem hs.memory (storeRegion_fits ht))

theorem accept_inv (g : Bool) (rest : List Input) {s : State} (hs : Inv s) : Inv (accept g rest s) :=
  ⟨hs.memory, hs.schedule, hs.response⟩

/-- Settles O52, by the event of the step: a command, an abandoned one, a reset, or the platform's doing. -/
theorem everyStepKeepsInvariant : Obligations.EveryStepKeepsInvariant := by
  intro s t hs h
  obtain ⟨-, rfl⟩ | ⟨p, g, rest, i, -, -, he⟩ | ⟨p, g, rest, i, -, -, ha⟩ | ⟨rest, -, rfl⟩ |
    ⟨x, v, rest, -, rfl⟩ | ⟨l, rest, -, rfl⟩ := step_cases h
  · exact hs
  · exact exec_keeps_inv (accept_inv g rest hs) he
  · exact abandon_keeps_inv (accept_inv g rest hs) ha
  · exact resetEngine_inv hs.memory
  · exact hostWriteByte_inv x v ⟨hs.memory, hs.schedule, hs.response⟩
  · exact ⟨hs.memory, hs.schedule, hs.response⟩

/-- Settles O53: memory is empty, and there is neither a context nor a response. -/
theorem resetMeetsInvariant : Obligations.ResetMeetsInvariant where
  memory := reset_mem_wf
  schedule := nofun
  response := nofun

/-- Settles O54. -/
theorem resetHasNoContext : Obligations.ResetHasNoContext := ⟨rfl, rfl, rfl⟩

/-! ### No result depends on unspecified state

Each update of the state takes two states that look the same to two that look the same; an operation that
reads `RK` does so only under a context, where the two agree on it. -/

section SameVisible

variable {s t : State}

protected theorem SameVisible.freeWork (h : SameVisible s t) : SameVisible (freeWork s) (freeWork t) :=
  ⟨h.ctxv, h.rk, h.mem, h.response, h.inputs, h.allocGrant, h.admission⟩

protected theorem SameVisible.freeChk (h : SameVisible s t) : SameVisible (freeChk s) (freeChk t) :=
  ⟨h.ctxv, h.rk, h.mem, h.response, h.inputs, h.allocGrant, h.admission⟩

protected theorem SameVisible.accept (h : SameVisible s t) (g : Bool) (rest : List Input) :
    SameVisible (accept g rest s) (accept g rest t) :=
  ⟨h.ctxv, h.rk, h.mem, h.response, rfl, rfl, h.admission⟩

protected theorem SameVisible.withInputs (h : SameVisible s t) (rest : List Input) :
    SameVisible { s with inputs := rest } { t with inputs := rest } :=
  ⟨h.ctxv, h.rk, h.mem, h.response, rfl, h.allocGrant, h.admission⟩

protected theorem SameVisible.replaceAdmit (h : SameVisible s t) (l : List Region) :
    SameVisible (replaceAdmit l s) (replaceAdmit l t) :=
  ⟨h.ctxv, h.rk, h.mem, h.response, h.inputs, h.allocGrant, rfl⟩

protected theorem SameVisible.hostWriteByte (h : SameVisible s t) (x : Word) (v : Byte) :
    SameVisible (hostWriteByte x v s) (hostWriteByte x v t) :=
  ⟨h.ctxv, h.rk, congrArg (Memory.write · x.toNat v) h.mem, h.response, h.inputs, h.allocGrant, h.admission⟩

/-- Releasing the context hides `RK`, whatever free values it takes (R24, R108). -/
protected theorem SameVisible.releaseContext (h : SameVisible s t) :
    SameVisible (freeRk (setCtxv false s)) (freeRk (setCtxv false t)) :=
  ⟨rfl, nofun, h.mem, h.response, h.inputs, h.allocGrant, h.admission⟩

/-- Making a context shows `RK`, which is then the same schedule on both sides (R103). -/
protected theorem SameVisible.makeContext (h : SameVisible s t) (rk : Vector Word 32) :
    SameVisible (setCtxv true (writeRk rk s)) (setCtxv true (writeRk rk t)) :=
  ⟨rfl, fun _ => rfl, h.mem, h.response, h.inputs, h.allocGrant, h.admission⟩

/-- Both sides write the same Words, which looks the same with a context or without (R103). -/
protected theorem SameVisible.writeRk (h : SameVisible s t) (rk : Vector Word 32) :
    SameVisible (writeRk rk s) (writeRk rk t) :=
  ⟨h.ctxv, fun _ => rfl, h.mem, h.response, h.inputs, h.allocGrant, h.admission⟩

protected theorem SameVisible.resetEngine (h : SameVisible s t) : SameVisible (resetEngine s) (resetEngine t) :=
  ⟨rfl, nofun, h.mem, rfl, h.inputs, h.allocGrant, h.admission⟩

protected theorem SameVisible.respond (h : SameVisible s t) (st : Status) (r0 r1 : Word) :
    SameVisibleResult (respond st r0 r1 s) (respond st r0 r1 t) :=
  show SameVisible _ _ from ⟨h.ctxv, h.rk, h.mem, rfl, h.inputs, h.allocGrant, h.admission⟩

protected theorem SameVisible.construct (h : SameVisible s t) (k0 k1 : Word) :
    SameVisibleResult (construct k0 k1 s) (construct k0 k1 t) := by
  unfold construct
  rw [← h.ctxv, ← h.allocGrant]
  split
  · exact h.respond _ _ _
  · exact ((h.writeRk _).freeWork.makeContext _).respond _ _ _

/-- The buffer commands read `RK`, but after the context test (R147). -/
protected theorem SameVisible.processBuffer (h : SameVisible s t) (f : Vector Word 32 → Word → Word → Word × Word)
    (src dst len : Word) :
    SameVisibleResult (processBuffer f src dst len s) (processBuffer f src dst len t) := by
  unfold processBuffer
  rw [← h.ctxv, ← h.admission, ← h.mem]
  split
  · rfl
  · next hc =>
    rw [← h.rk (by simpa using hc)]
    split
    · exact h.respond _ _ _
    · split
      · exact h.respond _ _ _
      · split
        · rfl
        · refine SameVisible.respond (.freeChk (.freeWork ?_)) _ _ _
          exact ⟨rfl, fun _ => rfl, rfl, h.response, h.inputs, h.allocGrant, rfl⟩

protected theorem SameVisible.finish (h : SameVisible s t) : SameVisibleResult (execFinish s) (execFinish t) := by
  unfold execFinish
  rw [← h.ctxv]
  split
  · exact h.releaseContext.respond _ _ _
  · exact h.respond _ _ _

protected theorem SameVisible.initb (h : SameVisible s t) (kaddr : Word) :
    SameVisibleResult (execInitb kaddr s) (execInitb kaddr t) := by
  unfold execInitb
  rw [← h.admission, ← h.mem]
  split
  · rfl
  · exact h.construct _ _

/-- `ENCBLK` and `DECBLK` are one shape over the block function: no answer without a context, and with one
an answer read off `RK` (R117, R120). -/
protected theorem SameVisible.block (h : SameVisible s t) (f : Vector Word 32 → Word × Word) :
    SameVisibleResult
      (if s.ctxv then respond .ok (f s.rk).1 (f s.rk).2 (freeWork s) else .fault .invalidContext)
      (if t.ctxv then respond .ok (f t.rk).1 (f t.rk).2 (freeWork t) else .fault .invalidContext) := by
  rw [← h.ctxv]
  split
  · next hc =>
    rw [← h.rk hc]
    exact h.freeWork.respond _ _ _
  · rfl

/-- A command takes two states that look the same to results that look the same. -/
protected theorem SameVisible.exec (h : SameVisible s t) (i : Instr) : SameVisibleResult (exec i s) (exec i t) := by
  cases i with
  | init var k0 k1 =>
    simp only [exec, execInit]
    split
    · exact h.construct k0 k1
    · rfl
  | initb kaddr => exact h.initb kaddr
  | encblk p0 p1 => exact h.block (encBlock · p0 p1)
  | decblk c0 c1 => exact h.block (decBlock · c0 c1)
  | encbuf src dst len => exact h.processBuffer encBlock src dst len
  | decbuf src dst len => exact h.processBuffer decBlock src dst len
  | finish => exact h.finish
  | rndf x y k => exact h.respond _ _ _
  | rndi x y k => exact h.respond _ _ _

end SameVisible

/-- Settles O55, by the event that both sides take. -/
theorem unspecifiedStateIsUnobservable : Obligations.UnspecifiedStateIsUnobservable := by
  intro s s' h hna
  have hin := h.inputs
  cases hi : s.inputs with
  | nil =>
    simp only [step, hi, ← hin]
    exact h
  | cons e rest =>
    rw [hi] at hin
    cases e with
    | command p g =>
      simp only [step, hi, ← hin]
      cases decode p with
      | none => rfl
      | some i => exact (h.accept g rest).exec i
    | abandoned p g => exact absurd hi (hna p g rest)
    | reset =>
      simp only [step, hi, ← hin]
      exact (h.withInputs rest).resetEngine
    | hostWrite x v =>
      simp only [step, hi, ← hin]
      exact (h.withInputs rest).hostWriteByte x v
    | setAdmit l =>
      simp only [step, hi, ← hin]
      exact (h.withInputs rest).replaceAdmit l

/-! ### The transient registers and `RK` -/

/-- Only the buffer commands use `CHK` (R27). -/
theorem exec_keeps_chk {i : Instr} {s t : State} (hb : bufferOperands i = none) (h : exec i s = .next t) :
    t.chk = s.chk := by
  obtain ⟨-, k0, k1, hk⟩ | ⟨-, ht⟩ | ⟨-, r0, r1, ht⟩ | ⟨f, src, dst, len, hb', -⟩ := exec_cases h
  · obtain ⟨-, rfl⟩ | ⟨-, -, rfl⟩ := construct_cases hk <;> rfl
  · rw [ht]
    split <;> rfl
  · obtain rfl | ⟨-, rfl⟩ := ht <;> rfl
  · simp [hb] at hb'

/-- A response alone leaves the transient registers. -/
theorem keepsTransient_of_respond {st : Status} {r0 r1 : Word} {s t : State}
    (h : respond st r0 r1 s = .next t) : KeepsTransient s t := by
  rw [respond_eq_next.mp h]
  exact ⟨rfl, rfl, rfl, rfl⟩

/-- `FINISH` releases `RK` and runs no round (R108). -/
theorem execFinish_keepsTransient {s t : State} (h : execFinish s = .next t) : KeepsTransient s t := by
  unfold execFinish at h
  split at h
  · have hk := keepsTransient_of_respond h
    exact ⟨hk.w0, hk.w1, hk.rnd, hk.chk⟩
  · exact keepsTransient_of_respond h

/-- A construction that fails changes nothing (R104). -/
theorem construct_failure_keepsTransient {k0 k1 : Word} {s t : State} (h : construct k0 k1 s = .next t)
    (hf : s.ctxv = true ∨ s.allocGrant = false) : KeepsTransient s t := by
  obtain ⟨-, rfl⟩ | ⟨hc, hg, -⟩ := construct_cases h
  · exact ⟨rfl, rfl, rfl, rfl⟩
  · simp [hc, hg] at hf

/-- A buffer command that reaches no chunk runs no round (R127, R129). -/
theorem processBuffer_no_chunk_keepsTransient {f : Vector Word 32 → Word → Word → Word × Word}
    {src dst len : Word} {s t : State} (h : processBuffer f src dst len s = .next t)
    (hl : len.toNat % 16 ≠ 0 ∨ len.toNat = 0) : KeepsTransient s t := by
  obtain ⟨-, ⟨-, rfl⟩ | ⟨-, rfl⟩ | ⟨hm, hz, -, -⟩⟩ := processBuffer_cases h
  · exact ⟨rfl, rfl, rfl, rfl⟩
  · exact ⟨rfl, rfl, rfl, rfl⟩
  · simp [hm, hz] at hl

/-- Settles O26: each clause is its command's own lemma. -/
theorem transientRegistersChangeOnlyWhereUsed : Obligations.TransientRegistersChangeOnlyWhereUsed := by
  intro i s t h
  refine ⟨?_, fun hc hf => ?_, ?_, fun hb => exec_keeps_chk hb h⟩
  · rintro (rfl | ⟨x, y, k, rfl | rfl⟩)
    · exact execFinish_keepsTransient h
    · exact keepsTransient_of_respond h
    · exact keepsTransient_of_respond h
  · obtain ⟨k0, k1, hk⟩ := construct_of_exec hc h
    exact construct_failure_keepsTransient hk hf
  · rintro (⟨src, dst, len, hb, hl⟩ | ⟨src, dst, hb⟩)
    · obtain ⟨f, a, b, n, -, -, rfl, hp⟩ := processBuffer_of_exec hb h
      exact processBuffer_no_chunk_keepsTransient hp (.inl hl)
    · obtain ⟨f, a, b, n, -, -, hz, hp⟩ := processBuffer_of_exec hb h
      exact processBuffer_no_chunk_keepsTransient hp (.inr hz)

/-- Settles O27, by what a command can make of the context. -/
theorem subkeysImmutableWhileContextLives : Obligations.SubkeysImmutableWhileContextLives := by
  intro i s t h hne
  obtain hk | ⟨hc, hs, hg, ht, -⟩ | hfin := exec_context_cases h
  · exact absurd hk.rk hne
  · exact .inl ⟨hc, hs, hg, ht⟩
  · exact .inr hfin

end Sys2Proof.Machine
end

section
/-! PROOFS. Buffer memory (spec/20_memory.md): what the writes leave unchanged, the byte conversions, and the
region checks with their outcomes. -/

namespace Sys2Proof.Machine

/-! ### The platform's events -/

theorem step_hostWrite {s : State} {x : Word} {v : Byte} {rest : List Input}
    (h : s.inputs = .hostWrite x v :: rest) :
    step s = .next (hostWriteByte x v { s with inputs := rest }) := by
  simp only [step, h]

theorem step_setAdmit {s : State} {l : List Region} {rest : List Input} (h : s.inputs = .setAdmit l :: rest) :
    step s = .next (replaceAdmit l { s with inputs := rest }) := by
  simp only [step, h]

/-- Settles O11: the event is one byte write to a canonical memory. -/
theorem hostWriteChangesOneByte : Obligations.HostWriteChangesOneByte := by
  intro s x v rest hw hi
  refine ⟨_, step_hostWrite hi, ⟨rfl, rfl⟩, ⟨rfl, rfl, rfl, rfl⟩, rfl, rfl, rfl, rfl, ?_, fun a ha => ?_⟩
  · rw [hostWriteByte_mem, Memory.read_write hw, if_pos rfl]
  · rw [hostWriteByte_mem, Memory.read_write hw, if_neg ha]

/-- Settles O12: the event replaces one field. -/
theorem setAdmitReplacesAdmission : Obligations.SetAdmitReplacesAdmission := fun _ _ _ hi =>
  ⟨_, step_setAdmit hi, rfl, ⟨rfl, rfl⟩, ⟨rfl, rfl, rfl, rfl⟩, fun _ => rfl, rfl, rfl, rfl⟩

/-! ### What `MemWrite` sets and what it leaves -/

/-- `MemWrite` leaves every byte outside its region (R45). -/
theorem read_memWrite_outside {m : Memory} {addr a : Nat} {bs : List Byte} (hw : Memory.wf m = true)
    (hb : addr + bs.length ≤ 2 ^ 64) (ha : a < addr ∨ addr + bs.length ≤ a) :
    Memory.read (memWrite m addr bs) a = Memory.read m a := by
  induction bs generalizing m addr with
  | nil => rfl
  | cons b bs ih =>
    simp only [List.length_cons] at hb ha
    have hne : a ≠ addr := by omega
    calc Memory.read (memWrite (Memory.write m addr b) (addr + 1) bs) a
        = Memory.read (Memory.write m addr b) a :=
          ih (Memory.wf_write addr b hw (by omega)) (by omega) (by omega)
      _ = Memory.read m a := by rw [Memory.read_write hw, if_neg hne]

/-- `MemWrite` sets byte `j` of its region to element `j` of its list (R45). -/
theorem read_memWrite_getElem {m : Memory} {addr : Nat} {bs : List Byte} (hw : Memory.wf m = true)
    (hb : addr + bs.length ≤ 2 ^ 64) (j : Nat) (hj : j < bs.length) :
    Memory.read (memWrite m addr bs) (addr + j) = bs[j] := by
  induction bs generalizing m addr j with
  | nil => simp at hj
  | cons b bs ih =>
    simp only [List.length_cons] at hb hj
    have hw' : Memory.wf (Memory.write m addr b) = true := Memory.wf_write addr b hw (by omega)
    cases j with
    | zero =>
      calc Memory.read (memWrite (Memory.write m addr b) (addr + 1) bs) addr
          = Memory.read (Memory.write m addr b) addr := read_memWrite_outside hw' (by omega) (by omega)
        _ = b := by rw [Memory.read_write hw, if_pos rfl]
    | succ j =>
      rw [← Nat.add_assoc, Nat.add_right_comm]
      exact ih hw' (by omega) j (by omega)

/-- Settles O36, by induction on the list written. -/
theorem memWriteSetsItsBytesOnly : Obligations.MemWriteSetsItsBytesOnly := fun _ _ _ hw hb =>
  ⟨read_memWrite_getElem hw hb, fun _ => read_memWrite_outside hw hb⟩

/-! ### Who writes memory -/

/-- A chunk leaves every byte outside its 16 output bytes (R126). -/
theorem read_processChunk_outside (f : Word → Word → Word × Word) {src dst a : Nat} {m : Memory}
    (hw : Memory.wf m = true) (hd : dst + 16 ≤ 2 ^ 64) (ha : a < dst ∨ dst + 16 ≤ a) :
    Memory.read (processChunk f src dst m) a = Memory.read m a :=
  read_memWrite_outside hw (by rwa [bytesFromBlock_length]) (by rwa [bytesFromBlock_length])

/-- The chunks of a buffer command leave every byte outside the output region (R126). -/
theorem read_processChunks_outside (f : Word → Word → Word × Word) {n src dst a : Nat} {m : Memory}
    (hw : Memory.wf m = true) (hd : dst + 16 * n ≤ 2 ^ 64) (ha : a < dst ∨ dst + 16 * n ≤ a) :
    Memory.read (processChunks f n src dst m) a = Memory.read m a := by
  induction n generalizing src dst m with
  | zero => rfl
  | succ n ih =>
    calc Memory.read (processChunks f n (src + 16) (dst + 16) (processChunk f src dst m)) a
        = Memory.read (processChunk f src dst m) a :=
          ih (processChunk_wf f hw (by omega)) (by omega) (by omega)
      _ = Memory.read m a := read_processChunk_outside f hw (by omega) (by omega)

/-- A buffer command that answers writes its output region alone (R41). -/
theorem processBuffer_keepsMemoryOutside {f : Vector Word 32 → Word → Word → Word × Word} {src dst len : Word}
    {s t : State} (hw : Memory.wf s.mem = true) (h : processBuffer f src dst len s = .next t) :
    KeepsMemoryOutside dst.toNat len.toNat s t := by
  intro a ha
  obtain ⟨-, ⟨-, rfl⟩ | ⟨-, rfl⟩ | ⟨hl, -, hck, rfl⟩⟩ := processBuffer_cases h
  · rfl
  · rfl
  · have hfits := (regionsLegal_iff_bufCheck.mpr hck).dstFits
    exact read_processChunks_outside _ hw (by omega) (by omega)

/-- A command with no buffer operands does not touch memory (R41). -/
theorem exec_keeps_mem {i : Instr} {s t : State} (hb : bufferOperands i = none) (h : exec i s = .next t) :
    t.mem = s.mem := by
  obtain ⟨-, k0, k1, hk⟩ | ⟨-, ht⟩ | ⟨-, r0, r1, ht⟩ | ⟨f, src, dst, len, hb', -⟩ := exec_cases h
  · obtain ⟨-, rfl⟩ | ⟨-, -, rfl⟩ := construct_cases hk <;> rfl
  · rw [ht]
    split <;> rfl
  · obtain rfl | ⟨-, rfl⟩ := ht <;> rfl
  · simp [hb] at hb'

/-- Settles O47: the buffer commands are `processBuffer`, and no other command touches memory. -/
theorem onlyBufferCommandsWriteMemory : Obligations.OnlyBufferCommandsWriteMemory := by
  intro i s t hw h
  refine ⟨fun hb a => by rw [exec_keeps_mem hb h], fun src dst len hb => ?_⟩
  obtain ⟨f, a, b, n, -, rfl, rfl, hp⟩ := processBuffer_of_exec hb h
  exact processBuffer_keepsMemoryOutside hw hp

/-! ### Bytes and Words -/

theorem littleEndian_append (as bs : List Byte) :
    littleEndian (as ++ bs) = littleEndian as + (2 ^ 8) ^ as.length * littleEndian bs := by
  induction as with
  | nil => simp [littleEndian]
  | cons a as ih =>
    simp only [List.cons_append, List.length_cons, littleEndian, ih, pow_succ]
    ring

theorem littleEndian_lt (bs : List Byte) : littleEndian bs < (2 ^ 8) ^ bs.length := by
  induction bs with
  | nil => simp [littleEndian]
  | cons b bs ih =>
    have hb := b.isLt
    simp only [littleEndian, List.length_cons, pow_succ (2 ^ 8) bs.length]
    omega

/-- Bytes of one number are its digits: lists of one length with one value are equal. -/
theorem littleEndian_inj {as bs : List Byte} (hl : as.length = bs.length)
    (h : littleEndian as = littleEndian bs) : as = bs := by
  induction as generalizing bs with
  | nil => exact (List.length_eq_zero_iff.mp hl.symm).symm
  | cons a as ih =>
    cases bs with
    | nil => simp at hl
    | cons b bs =>
      have ha := a.isLt
      have hb := b.isLt
      simp only [littleEndian] at h
      have hhead : a = b := BitVec.eq_of_toNat_eq (by omega)
      have htail : as = bs := ih (by simpa using hl) (by omega)
      rw [hhead, htail]

/-- The first `n` bytes of a Word have its value modulo `2^(8n)` (R14). -/
theorem littleEndian_bytes (w : Word) (n : Nat) :
    littleEndian ((List.range n).map fun j => w.extractLsb' (8 * j) 8) = w.toNat % (2 ^ 8) ^ n := by
  induction n with
  | zero => simp [littleEndian, Nat.mod_one]
  | succ n ih =>
    have hbyte : (w.extractLsb' (8 * n) 8).toNat = w.toNat / (2 ^ 8) ^ n % 2 ^ 8 := by
      rw [BitVec.extractLsb'_toNat, Nat.shiftRight_eq_div_pow, pow_mul]
    simp only [List.range_succ, List.map_append, littleEndian_append, ih, List.length_map, List.length_range,
      List.map_cons, List.map_nil, littleEndian, hbyte, Nat.mul_zero, Nat.add_zero, Nat.mod_pow_succ]

@[simp] theorem bytesLe64_length (w : Word) : (bytesLe64 w).length = 8 := by simp [bytesLe64]

theorem littleEndian_bytesLe64 (w : Word) : littleEndian (bytesLe64 w) = w.toNat := by
  rw [bytesLe64, littleEndian_bytes]
  exact Nat.mod_eq_of_lt w.isLt

theorem le64_bytesLe64 (w : Word) : le64 (bytesLe64 w) = w := by
  rw [le64, littleEndian_bytesLe64, BitVec.ofNat_toNat, BitVec.setWidth_eq]

theorem bytesLe64_le64 {bs : List Byte} (h : bs.length = 8) : bytesLe64 (le64 bs) = bs := by
  refine littleEndian_inj (by rw [bytesLe64_length, h]) ?_
  have hlt : littleEndian bs < 2 ^ 64 := by simpa [h] using littleEndian_lt bs
  rw [littleEndian_bytesLe64, le64, BitVec.toNat_ofNat, Nat.mod_eq_of_lt hlt]

/-- Settles O37: word by word, a Word and its 8 bytes have one value (R14). -/
theorem blockByteConversionsInverse : Obligations.BlockByteConversionsInverse := by
  refine ⟨fun ⟨w0, w1⟩ => ?_, fun bs hbs => ?_⟩
  · have htake : (bytesLe64 w0 ++ bytesLe64 w1).take 8 = bytesLe64 w0 := List.take_left' (bytesLe64_length w0)
    have hdrop : (bytesLe64 w0 ++ bytesLe64 w1).drop 8 = bytesLe64 w1 := List.drop_left' (bytesLe64_length w0)
    rw [bytesFromBlock, blockFromBytes, htake, hdrop, le64_bytesLe64, le64_bytesLe64]
  · have htake : (bs.take 8).length = 8 := by simp [hbs]
    have hdrop : (bs.drop 8).length = 8 := by simp [hbs]
    rw [blockFromBytes, bytesFromBlock, bytesLe64_le64 htake, bytesLe64_le64 hdrop, List.take_append_drop]

/-! ### The region checks that fail, in their order -/

theorem noWrap_eq_false_iff {a n : Nat} : noWrap a n = false ↔ 2 ^ 64 < a + n := by
  rw [← Bool.not_eq_true, noWrap_iff, Nat.not_le]

theorem disjoint_eq_false_iff {a b n : Nat} : disjoint a b n = false ↔ b < a + n ∧ a < b + n := by
  rw [← Bool.not_eq_true, disjoint_iff]
  omega

theorem admitted_eq_false_iff {l : List Region} {a n : Nat} {kind : AccessKind} :
    admitted l a n kind = false ↔ ∃ j < n, admits l (a + j) kind = false := by
  simp [admitted]

theorem bufCheck_addressWrap (l : List Region) {src dst len : Nat}
    (h : 2 ^ 64 < src + len ∨ 2 ^ 64 < dst + len) : bufCheck l src dst len = some .addressWrap := by
  rw [← noWrap_eq_false_iff, ← noWrap_eq_false_iff] at h
  exact if_pos (by simpa using h)

theorem bufCheck_bufferOverlap (l : List Region) {src dst len : Nat} (hs : src + len ≤ 2 ^ 64)
    (hd : dst + len ≤ 2 ^ 64) (hne : src ≠ dst) (h1 : src < dst + len) (h2 : dst < src + len) :
    bufCheck l src dst len = some .bufferOverlap := by
  simp [bufCheck, noWrap_iff.mpr hs, noWrap_iff.mpr hd, hne, disjoint_eq_false_iff.mpr ⟨h2, h1⟩]

theorem bufCheck_memoryNotAdmitted {l : List Region} {src dst len : Nat} (hs : src + len ≤ 2 ^ 64)
    (hd : dst + len ≤ 2 ^ 64) (hdis : src = dst ∨ src + len ≤ dst ∨ dst + len ≤ src)
    (h : ∃ j < len, admits l (src + j) .read = false ∨ admits l (dst + j) .write = false) :
    bufCheck l src dst len = some .memoryNotAdmitted := by
  have hov : (src != dst && !disjoint src dst len) = false := by
    obtain rfl | hdis := hdis
    · simp
    · simp [disjoint_iff.mpr hdis]
  have hadm : (!admitted l src len .read || !admitted l dst len .write) = true := by
    obtain ⟨j, hj, h⟩ := h
    rw [Bool.or_eq_true, Bool.not_eq_true', Bool.not_eq_true', admitted_eq_false_iff, admitted_eq_false_iff]
    exact h.imp (⟨j, hj, ·⟩) (⟨j, hj, ·⟩)
  rw [bufCheck, noWrap_iff.mpr hs, noWrap_iff.mpr hd, hov, hadm]
  rfl

theorem keyCheck_addressWrap (l : List Region) {kaddr : Nat} (h : 2 ^ 64 < kaddr + 16) :
    keyCheck l kaddr = some .addressWrap :=
  if_pos (by simp [noWrap_eq_false_iff.mpr h])

theorem keyCheck_memoryNotAdmitted {l : List Region} {kaddr : Nat} (hk : kaddr + 16 ≤ 2 ^ 64)
    (h : ∃ j < 16, admits l (kaddr + j) .read = false) : keyCheck l kaddr = some .memoryNotAdmitted := by
  simp [keyCheck, noWrap_iff.mpr hk, admitted_eq_false_iff.mpr h]

/-- `ENCBUF` and `DECBUF` are one operation over their block function (R130). -/
theorem exec_eq_processBuffer {i : Instr} {src dst len : Word}
    (hi : i = .encbuf src dst len ∨ i = .decbuf src dst len) (s : State) :
    ∃ f, exec i s = processBuffer f src dst len s := by
  obtain rfl | rfl := hi
  · exact ⟨encBlock, rfl⟩
  · exact ⟨decBlock, rfl⟩

/-- With a context and chunks to process, a check that fails is the command's outcome (R59). -/
theorem exec_buffer_refused {i : Instr} {s : State} {src dst len : Word} {r : Refusal}
    (hi : i = .encbuf src dst len ∨ i = .decbuf src dst len) (hc : s.ctxv = true) (hl : len.toNat % 16 = 0)
    (hz : len.toNat ≠ 0) (hr : bufCheck s.admission src.toNat dst.toNat len.toNat = some r) :
    exec i s = .refused r := by
  obtain ⟨f, hf⟩ := exec_eq_processBuffer hi s
  have hchunks : len.toNat / 16 ≠ 0 := by omega
  rw [hf]
  simp [processBuffer, hc, hl, hchunks, hr]

/-- A check of the key region that fails is the outcome of `INITB` (R59). -/
theorem exec_initb_refused {s : State} {kaddr : Word} {r : Refusal}
    (hr : keyCheck s.admission kaddr.toNat = some r) : exec (.initb kaddr) s = .refused r := by
  simp only [exec, execInitb, hr]

/-- Settles O40: the command's outcome is the check's, and each check fails in its order. -/
theorem regionChecksRefuseInOrder : Obligations.RegionChecksRefuseInOrder := by
  refine ⟨fun s src dst len i hi hc hl hz => ⟨?_, ?_, ?_⟩, fun s kaddr => ⟨?_, ?_⟩⟩
  · exact fun h => exec_buffer_refused hi hc hl hz (bufCheck_addressWrap _ h)
  · intro hs hd hne h1 h2
    have hne' : src.toNat ≠ dst.toNat := fun he => hne (BitVec.eq_of_toNat_eq he)
    exact exec_buffer_refused hi hc hl hz (bufCheck_bufferOverlap _ hs hd hne' h1 h2)
  · intro hs hd hdis h
    have hdis' := hdis.imp_left (congrArg BitVec.toNat)
    exact exec_buffer_refused hi hc hl hz (bufCheck_memoryNotAdmitted hs hd hdis' h)
  · exact fun h => exec_initb_refused (keyCheck_addressWrap _ h)
  · exact fun hk h => exec_initb_refused (keyCheck_memoryNotAdmitted hk h)

end Sys2Proof.Machine
end

section
/-! PROOFS. The encoding (spec/30_encoding.md): a packet's row, the decoder and the encoder as inverses of each
other, the reserved encodings, the port, and the response packet with the statuses of each command. -/

namespace Sys2Proof

/-! ### The row of a packet (R65) -/

theorem fieldOp_and (p q : Packet) : fieldOp (p &&& q) = fieldOp p &&& fieldOp q := by
  apply BitVec.eq_of_getLsbD_eq
  intro i hi
  simp [fieldOp, hi]

/-- A row matches only packets with the row's own `OP`, since every mask compares `OP` in full. -/
theorem fieldOp_of_rowMatches {p : Packet} {r : OpcodeRow} (hr : r ∈ opcodeRows) (h : rowMatches p r = true) :
    fieldOp p = fieldOp r.pattern := by
  have hmask : ∀ r ∈ opcodeRows, fieldOp r.mask = BitVec.allOnes 8 := by decide
  calc fieldOp p = fieldOp p &&& fieldOp r.mask := by rw [hmask r hr, BitVec.and_allOnes]
    _ = fieldOp (p &&& r.mask) := (fieldOp_and p r.mask).symm
    _ = fieldOp r.pattern := congrArg fieldOp (eq_of_beq h)

theorem row_eq_of_fieldOp_pattern :
    ∀ r ∈ opcodeRows, ∀ r' ∈ opcodeRows, fieldOp r.pattern = fieldOp r'.pattern → r = r' := by decide

/-- Settles O4: a row that matches has the packet's `OP`, and the nine rows differ in `OP`. -/
theorem atMostOneRowMatches : Obligations.AtMostOneRowMatches := fun _ r r' hr hr' h h' =>
  row_eq_of_fieldOp_pattern r hr r' hr' ((fieldOp_of_rowMatches hr h).symm.trans (fieldOp_of_rowMatches hr' h'))

/-! ### Decoding and encoding are inverse (R77) -/

/-- A packet of lanes is `p` exactly when its lanes are the fields of `p` (R61). -/
theorem lanes_eq_iff {a b c d : Word} {p : Packet} :
    lanes a b c d = p ↔ fieldC p = a ∧ fieldB p = b ∧ fieldA p = c ∧ fieldControl p = d := by
  rw [eq_comm, ← lanes_fields p, lanes_inj]
  simp

/-- The fields of a packet that is a command of this mnemonic: its control lane, and zero in every unused
operand (R62, R63). -/
def FieldsMatch (p : Packet) : Mnemonic → Prop
  | .init => fieldControl p = controlLane 7 0x01 ∧ fieldC p = 0
  | .initb => fieldControl p = controlLane 0 0x02 ∧ fieldB p = 0 ∧ fieldC p = 0
  | .encblk => fieldControl p = controlLane 0 0x03 ∧ fieldC p = 0
  | .decblk => fieldControl p = controlLane 0 0x04 ∧ fieldC p = 0
  | .encbuf => fieldControl p = controlLane 0 0x05
  | .decbuf => fieldControl p = controlLane 0 0x06
  | .finish => fieldControl p = controlLane 0 0x07 ∧ fieldA p = 0 ∧ fieldB p = 0 ∧ fieldC p = 0
  | .rndf => fieldControl p = controlLane 0 0x08
  | .rndi => fieldControl p = controlLane 0 0x09

theorem rowMatches_iff_fieldsMatch {p : Packet} {r : OpcodeRow} (hr : r ∈ opcodeRows) :
    rowMatches p r = true ↔ FieldsMatch p r.mnemonic := by
  simp only [opcodeRows, List.mem_cons, List.not_mem_nil, or_false] at hr
  obtain rfl | rfl | rfl | rfl | rfl | rfl | rfl | rfl | rfl := hr
  exacts [rowMatches_q0_q3, rowMatches_q0_q2_q3, rowMatches_q0_q3, rowMatches_q0_q3, rowMatches_q0, rowMatches_q0,
    rowMatches_all, rowMatches_q0, rowMatches_q0]

/-- A packet's fields match a mnemonic exactly when the operands read for it make a command that encodes to
the packet. -/
theorem fieldsMatch_iff_encode {p : Packet} {m : Mnemonic} :
    FieldsMatch p m ↔ (operandsOf p m).wellFormed = true ∧ encode (operandsOf p m) = p := by
  cases m with
  | init =>
    simp only [FieldsMatch, operandsOf, encode, lanes_eq_iff, fieldControl_eq_controlLane, Instr.wellFormed,
      beq_iff_eq]
    tauto
  | _ =>
    simp [FieldsMatch, operandsOf, encode, lanes_eq_iff, Instr.wellFormed, and_comm, and_left_comm, and_assoc]

/-- The mnemonic of a command (R64). -/
def mnemonicOf : Instr → Mnemonic
  | .init _ _ _ => .init
  | .initb _ => .initb
  | .encblk _ _ => .encblk
  | .decblk _ _ => .decblk
  | .encbuf _ _ _ => .encbuf
  | .decbuf _ _ _ => .decbuf
  | .finish => .finish
  | .rndf _ _ _ => .rndf
  | .rndi _ _ _ => .rndi

theorem exists_row_mnemonic (m : Mnemonic) : ∃ r ∈ opcodeRows, r.mnemonic = m := by
  cases m <;> decide

/-- The operands read from a command's own packet are the command's. -/
theorem operandsOf_encode (i : Instr) : operandsOf (encode i) (mnemonicOf i) = i := by
  cases i with
  | init var k0 k1 =>
    obtain ⟨-, -, hvar⟩ := Laws.control_fields 0 k1 k0 var 0x01
    simp only [mnemonicOf, operandsOf, encode, hvar, fieldA_lanes, fieldB_lanes]
  | _ => simp [mnemonicOf, operandsOf, encode]

/-- The decoder reads a command from the row that matches, wherever in the table it stands (R65, R77). -/
theorem decode_eq_some_iff_row {p : Packet} {i : Instr} :
    decode p = some i ↔ ∃ r ∈ opcodeRows, rowMatches p r = true ∧ operandsOf p r.mnemonic = i := by
  constructor
  · intro h
    obtain ⟨r, hfind, hi⟩ := Option.map_eq_some_iff.mp h
    exact ⟨r, List.mem_of_find?_eq_some hfind, List.find?_some hfind, hi⟩
  · rintro ⟨r, hr, hm, hi⟩
    obtain ⟨r', hfind⟩ : ∃ r', opcodeRows.find? (rowMatches p) = some r' :=
      Option.isSome_iff_exists.mp (List.find?_isSome.mpr ⟨r, hr, hm⟩)
    have hrow : r' = r :=
      atMostOneRowMatches p r' r (List.mem_of_find?_eq_some hfind) hr (List.find?_some hfind) hm
    rw [decode, hfind, hrow, Option.map_some, hi]

/-- A packet decodes to a command exactly when it is the encoding of that well-formed command (R77). -/
theorem decode_eq_some_iff {p : Packet} {i : Instr} :
    decode p = some i ↔ i.wellFormed = true ∧ encode i = p := by
  rw [decode_eq_some_iff_row]
  constructor
  · rintro ⟨r, hr, hm, rfl⟩
    exact fieldsMatch_iff_encode.mp ((rowMatches_iff_fieldsMatch hr).mp hm)
  · rintro ⟨hwf, rfl⟩
    obtain ⟨r, hr, hmn⟩ := exists_row_mnemonic (mnemonicOf i)
    have hops : operandsOf (encode i) r.mnemonic = i := by rw [hmn, operandsOf_encode]
    have hfields : FieldsMatch (encode i) r.mnemonic :=
      fieldsMatch_iff_encode.mpr (by rw [hops]; exact ⟨hwf, rfl⟩)
    exact ⟨r, hr, (rowMatches_iff_fieldsMatch hr).mpr hfields, hops⟩

/-- Settles O1: the command is well-formed and the packet is its encoding. -/
theorem decodeEncodeEveryCommand : Obligations.DecodeEncodeEveryCommand := fun _ hwf =>
  decode_eq_some_iff.mpr ⟨hwf, rfl⟩

/-- Settles O2: a packet decodes only to a command that encodes to it. -/
theorem encodeDecodeEveryPacket : Obligations.EncodeDecodeEveryPacket := fun _ _ h =>
  (decode_eq_some_iff.mp h).2

/-- Settles O5: each packet is the encoding of its command. -/
theorem writtenPacketsDecode : Obligations.WrittenPacketsDecode := by
  refine ⟨?_, ?_, ?_, ?_, ?_, ?_⟩ <;> exact decode_eq_some_iff.mpr (by decide)

/-! ### The reserved encodings (R66) -/

/-- A packet is reserved exactly when its fields match no row (R65). -/
theorem decode_eq_none_iff {p : Packet} :
    decode p = none ↔ ∀ r ∈ opcodeRows, ¬ FieldsMatch p r.mnemonic := by
  rw [decode, Option.map_eq_none_iff, List.find?_eq_none]
  exact forall₂_congr fun r hr => not_congr (rowMatches_iff_fieldsMatch hr)

/-- `OP` is one of the nine of the opcode map or reserved (R64). -/
theorem opcode_cases (op : BitVec 8) :
    (op = 0x00 ∨ 0x0A ≤ op.toNat) ∨ op = 0x01 ∨ op = 0x02 ∨ op = 0x03 ∨ op = 0x04 ∨ op = 0x05 ∨ op = 0x06 ∨
      op = 0x07 ∨ op = 0x08 ∨ op = 0x09 := by
  bv_omega

end Sys2Proof

namespace Sys2Proof.Machine

/-! ### A packet at the port (R60) -/

/-- A packet that decodes is run as its command, on the state in which it was accepted (R60). -/
theorem step_command {s : State} {p : Packet} {grant : Bool} {rest : List Input} {i : Instr}
    (h : s.inputs = .command p grant :: rest) (hd : decode p = some i) :
    step s = exec i (accept grant rest s) := by
  simp only [step, h, hd]

/-- A reserved packet ends the run, whatever the state (R66). -/
theorem step_command_reserved {s : State} {p : Packet} {grant : Bool} {rest : List Input}
    (h : s.inputs = .command p grant :: rest) (hd : decode p = none) :
    step s = .fault .reservedEncoding := by
  simp only [step, h, hd]

/-- Settles O3, by the value of `OP`: a reserved one matches no row, and each other one leaves a single row, whose
fixed fields are those the rule lists. -/
theorem reservedEncodingsFault : Obligations.ReservedEncodingsFault := by
  refine fun p => ⟨?_, fun hd s grant rest hi => step_command_reserved hi hd⟩
  rw [decode_eq_none_iff]
  simp only [opcodeRows, List.forall_mem_cons, FieldsMatch, fieldControl_eq_controlLane]
  obtain h | h | h | h | h | h | h | h | h | h := opcode_cases (fieldOp p)
  · have hne : ∀ k : BitVec 8, 0 < k.toNat → k.toNat < 0x0A → fieldOp p ≠ k := by bv_omega
    rw [iff_true_right (.inl h)]
    simp [hne]
  -- With `OP` known, both sides say which of that row's fixed fields is wrong.
  all_goals simp [h, imp_iff_not_or, or_comm, or_left_comm]

/-- Settles O7: that state is the one `accept` makes. -/
theorem stepRunsDecodedCommand : Obligations.StepRunsDecodedCommand := fun _ _ _ _ _ => step_command

/-! ### The response packet (R72) and the statuses of each command (R73, R74) -/

@[simp] theorem responseR0_packResponse (st : Status) (r0 r1 : Word) : responseR0 (packResponse st r0 r1) = r0 := by
  apply BitVec.eq_of_getLsbD_eq
  intro i hi
  have h1 : ¬ 64 + i < 8 := by omega
  have h2 : 64 + i < 128 := by omega
  simp [responseR0, packResponse_getLsbD, h1, h2, hi]

@[simp] theorem responseR1_packResponse (st : Status) (r0 r1 : Word) : responseR1 (packResponse st r0 r1) = r1 := by
  apply BitVec.eq_of_getLsbD_eq
  intro i hi
  have h1 : ¬ 128 + i < 8 := by omega
  have h2 : ¬ 128 + i < 64 := by omega
  simp [responseR1, packResponse_getLsbD, h1, h2, hi]

/-- Settles O6: each field of the packet has its lemma. -/
theorem responsePacketLayout : Obligations.ResponsePacketLayout := by
  refine ⟨fun st r0 r1 s => ⟨_, rfl, rfl⟩, fun st r0 r1 => ⟨?_, ?_, ?_, ?_⟩, rfl, rfl, rfl⟩
  · exact responseStatus_packResponse st r0 r1
  · exact responseZero_packResponse st r0 r1
  · exact responseR0_packResponse st r0 r1
  · exact responseR1_packResponse st r0 r1

/-- A construction answers `OK` or `ALLOCATION_FAILURE`, with no value (R104). -/
theorem construct_response {k0 k1 : Word} {s t : State} (h : construct k0 k1 s = .next t) :
    ∃ st, (st = .ok ∨ st = .allocationFailure) ∧ t.response = some (packResponse st 0 0) := by
  obtain ⟨-, rfl⟩ | ⟨-, -, rfl⟩ := construct_cases h
  · exact ⟨_, .inr rfl, rfl⟩
  · exact ⟨_, .inl rfl, rfl⟩

/-- A buffer command answers `OK` or `INVALID_LENGTH`, with no value (R126, R127, R129). -/
theorem processBuffer_response {f : Vector Word 32 → Word → Word → Word × Word} {src dst len : Word}
    {s t : State} (h : processBuffer f src dst len s = .next t) :
    ∃ st, (st = .ok ∨ st = .invalidLength) ∧ t.response = some (packResponse st 0 0) := by
  obtain ⟨-, ⟨-, rfl⟩ | ⟨-, rfl⟩ | ⟨-, -, -, rfl⟩⟩ := processBuffer_cases h
  · exact ⟨_, .inr rfl, rfl⟩
  · exact ⟨_, .inl rfl, rfl⟩
  · exact ⟨_, .inl rfl, rfl⟩

/-- Settles O49, by the shape of the command: in each, the clauses on the other classes ask nothing. -/
theorem statusesOfEachCommand : Obligations.StatusesOfEachCommand := by
  intro i s t h
  obtain ⟨hc, k0, k1, hk⟩ | ⟨rfl, ht⟩ | ⟨hs, r0, r1, ht⟩ | ⟨f, src, dst, len, hb, hp⟩ := exec_cases h
  · obtain ⟨st, hst, hr⟩ := construct_response hk
    have hnb := bufferOperands_of_constructs hc
    refine ⟨st, 0, 0, hr, fun _ => ⟨hst, rfl, rfl⟩, fun hb => absurd hnb hb, ?_, fun hs => ?_⟩
    · rintro rfl
      cases hc
    · simp [constructs_of_holdsState hs] at hc
  · have hr : t.response = some (packResponse .ok 0 0) := by rw [ht]; split <;> rfl
    exact ⟨.ok, 0, 0, hr, nofun, fun hb => absurd rfl hb, fun _ => ⟨rfl, rfl, rfl⟩, nofun⟩
  · have hr : t.response = some (packResponse .ok r0 r1) := by obtain rfl | ⟨-, rfl⟩ := ht <;> rfl
    have hnb := bufferOperands_of_holdsState hs
    refine ⟨.ok, r0, r1, hr, fun hc => ?_, fun hb => absurd hnb hb, ?_, fun _ => rfl⟩
    · simp [constructs_of_holdsState hs] at hc
    · rintro rfl
      cases hs
  · obtain ⟨st, hst, hr⟩ := processBuffer_response hp
    refine ⟨st, 0, 0, hr, fun hc => ?_, fun _ => ⟨hst, rfl, rfl⟩, ?_, fun hs => ?_⟩
    · simp [bufferOperands_of_constructs hc] at hb
    · rintro rfl
      cases hb
    · simp [bufferOperands_of_holdsState hs] at hb

end Sys2Proof.Machine
end

section
/-! PROOFS. The round transform (spec/40_round_transform.md): the bit maps of the rotations, the round and its inverse
as inverses of each other, and the commands `RNDF` and `RNDI`. -/

namespace Sys2Proof.Machine

/-! ### The rotations bit by bit (R12, R92) -/

/-- A right rotation by `n` takes bit `i` from bit `i + n`, around the end of the Word. -/
theorem rotr64_getLsbD (v : Word) {n i : Nat} (hn : n < 64) (hi : i < 64) :
    (rotr64 v n).getLsbD i = v.getLsbD ((i + n) % 64) := by
  rw [rotr64, BitVec.getLsbD_rotateRight_of_lt hn]
  by_cases h : i < 64 - n
  · simp [h, show (i + n) % 64 = n + i by omega]
  · simp [h, hi, show (i + n) % 64 = i - (64 - n) by omega]

/-- A left rotation by `n` takes bit `i` from bit `i - n`, around the end of the Word. -/
theorem rotl64_getLsbD (v : Word) {n i : Nat} (hn : n < 64) (hi : i < 64) :
    (rotl64 v n).getLsbD i = v.getLsbD ((i + (64 - n)) % 64) := by
  rw [rotl64, BitVec.getLsbD_rotateLeft_of_le hn]
  by_cases h : i < n
  · simp [h, show (i + (64 - n)) % 64 = 64 - n + i by omega]
  · simp [h, hi, show (i + (64 - n)) % 64 = i - n by omega]

/-- Settles O14: the four are rotations by fixed amounts. -/
theorem rotationBitMaps : Obligations.RotationBitMaps := fun v _ hi =>
  ⟨rotr64_getLsbD v (by decide) hi, rotl64_getLsbD v (by decide) hi, rotr64_getLsbD v (by decide) hi,
    rotl64_getLsbD v (by decide) hi⟩

/-! ### The round and its inverse (R86, R88, R90) -/

/-- The five steps of `RoundF` as one expression (R86). -/
theorem roundF_eq (x y k : Word) :
    roundF x y k = ((rotr64 x 8 + y) ^^^ k, rotl64 y 3 ^^^ ((rotr64 x 8 + y) ^^^ k)) := rfl

/-- The five steps of `RoundI` as one expression (R88). -/
theorem roundI_eq (x y k : Word) :
    roundI x y k = (rotl64 ((x ^^^ k) - rotr64 (y ^^^ x) 3) 8, rotr64 (y ^^^ x) 3) := rfl

/-- `RoundI` undoes `RoundF`: the second word comes back first, and then serves to undo the addition. -/
theorem roundI_roundF (x y k : Word) : roundI (roundF x y k).1 (roundF x y k).2 k = (x, y) := by
  simp only [roundF_eq, roundI_eq, xor_cancel_right, rotr64_rotl64 y (show 3 < 64 by decide),
    BitVec.add_sub_cancel, rotl64_rotr64 x (show 8 < 64 by decide)]

/-- `RoundF` undoes `RoundI`: the first word comes back first, and then serves to undo the last `xor`. -/
theorem roundF_roundI (x y k : Word) : roundF (roundI x y k).1 (roundI x y k).2 k = (x, y) := by
  simp only [roundF_eq, roundI_eq, rotr64_rotl64 _ (show 8 < 64 by decide), BitVec.sub_add_cancel,
    xor_cancel_right, rotl64_rotr64 _ (show 3 < 64 by decide)]

/-- Settles O13: each order has its lemma. -/
theorem roundTransformInvertible : Obligations.RoundTransformInvertible := ⟨roundI_roundF, roundF_roundI⟩

/-! ### The commands `RNDF` and `RNDI` (R87, R89) -/

/-- `RNDF` is one response, whether or not a context exists. -/
theorem exec_rndf (x y k : Word) (s : State) :
    exec (.rndf x y k) s = respond .ok (roundF x y k).1 (roundF x y k).2 s := rfl

/-- `RNDI` is one response, whether or not a context exists. -/
theorem exec_rndi (x y k : Word) (s : State) :
    exec (.rndi x y k) s = respond .ok (roundI x y k).1 (roundI x y k).2 s := rfl

/-- An answer puts its packet on the port and touches nothing else (R140). -/
theorem respond_frame (st : Status) (r0 r1 : Word) (s : State) :
    ∃ t, respond st r0 r1 s = .next t ∧ t.response = some (packResponse st r0 r1) ∧
      KeepsContext s t ∧ KeepsMemory s t ∧ KeepsInputs s t :=
  ⟨_, rfl, rfl, ⟨rfl, rfl⟩, fun _ => rfl, ⟨rfl, rfl, rfl⟩⟩

/-- Settles O15: the packet is the command's encoding, and the command is one response. -/
theorem rndfAnswersForwardStep : Obligations.RndfAnswersForwardStep := by
  refine fun s x y k => ⟨decode_eq_some_iff.mpr ⟨rfl, ?_⟩, ?_⟩
  · exact congrArg (lanes k y x) (by decide)
  · rw [exec_rndf, roundF_eq]
    exact respond_frame .ok _ _ s

/-- Settles O16: the packet is the command's encoding, and the command is one response. -/
theorem rndiAnswersInverseStep : Obligations.RndiAnswersInverseStep := by
  refine fun s x y k => ⟨decode_eq_some_iff.mpr ⟨rfl, ?_⟩, ?_⟩
  · exact congrArg (lanes k y x) (by decide)
  · rw [exec_rndi, roundI_eq]
    exact respond_frame .ok _ _ s

end Sys2Proof.Machine
end

section
/-! PROOFS. The key schedule and the commands that create and destroy the context
(spec/41_key_schedule_context.md): the recurrence of `KeyExpand`, and `INIT`, `INITB` and `FINISH` as one operation
each, with their frames. -/

namespace Sys2Proof.Machine

/-! ### The key schedule (R101) -/

/-- The running pair `(W1, W0)` of the key schedule before iteration `i` (R101). -/
def schedulePair (k0 k1 : Word) : Nat → Word × Word
  | 0 => (k1, k0)
  | i + 1 => roundF (schedulePair k0 k1 i).1 (schedulePair k0 k1 i).2 (zext64 i)

/-- The schedule continued from iteration `i` records the second word of every running pair from there on. -/
theorem subkeysFrom_schedulePair (k0 k1 : Word) (n i : Nat) :
    subkeysFrom n i (schedulePair k0 k1 i).2 (schedulePair k0 k1 i).1 =
      (List.range' i (n + 1)).map fun j => (schedulePair k0 k1 j).2 := by
  induction n generalizing i with
  | zero => rfl
  | succ n ih => exact congrArg ((schedulePair k0 k1 i).2 :: ·) (ih (i + 1))

theorem keyExpand_getElem (k0 k1 : Word) {i : Nat} (hi : i < 32) :
    (keyExpand k0 k1)[i] = (schedulePair k0 k1 i).2 := by
  have hlist : subkeysFrom 31 0 k0 k1 = (List.range' 0 32).map fun j => (schedulePair k0 k1 j).2 :=
    subkeysFrom_schedulePair k0 k1 31 0
  simp [keyExpand, hlist]

/-- Settles O18: the two sequences are the words of the running pair. -/
theorem keyExpandFollowsRecurrence : Obligations.KeyExpandFollowsRecurrence := fun k0 k1 =>
  ⟨fun i => (schedulePair k0 k1 i).1, fun i => (schedulePair k0 k1 i).2, rfl, rfl, fun _ _ => ⟨rfl, rfl⟩,
    fun i => keyExpand_getElem k0 k1 i.isLt⟩

/-! ### Construction (R103, R104) -/

/-- With the slot taken or no grant, a construction is one response. -/
theorem construct_eq_failure (k0 k1 : Word) {s : State} (h : s.ctxv = true ∨ s.allocGrant = false) :
    construct k0 k1 s = respond .allocationFailure 0 0 s :=
  if_pos (by simpa using h)

/-- With a free slot and a grant, a construction writes `RK` and sets `CTXV`; the zeros written first are
overwritten. -/
theorem construct_eq_success (k0 k1 : Word) {s : State} (hc : s.ctxv = false) (hg : s.allocGrant = true) :
    construct k0 k1 s = respond .ok 0 0 (setCtxv true (writeRk (keyExpand k0 k1) (freeWork s))) :=
  if_neg (by simp [hc, hg])

theorem construct_failure_frame (k0 k1 : Word) {s : State} (h : s.ctxv = true ∨ s.allocGrant = false) :
    ∃ t, construct k0 k1 s = .next t ∧ t.response = some (packResponse .allocationFailure 0 0) ∧
      KeepsContext s t ∧ KeepsMemory s t ∧ KeepsInputs s t := by
  rw [construct_eq_failure k0 k1 h]
  exact respond_frame .allocationFailure 0 0 s

theorem construct_success_frame (k0 k1 : Word) {s : State} (hc : s.ctxv = false) (hg : s.allocGrant = true) :
    ∃ t, construct k0 k1 s = .next t ∧ t.response = some (packResponse .ok 0 0) ∧
      t.ctxv = true ∧ t.rk = keyExpand k0 k1 ∧ KeepsMemory s t ∧ KeepsInputs s t :=
  ⟨_, construct_eq_success k0 k1 hc hg, rfl, rfl, rfl, fun _ => rfl, ⟨rfl, rfl, rfl⟩⟩

/-- After a construction a context exists if one did before or the allocator granted one (R104). -/
theorem construct_ctxv {k0 k1 : Word} {s t : State} (h : construct k0 k1 s = .next t) :
    t.ctxv = (s.ctxv || s.allocGrant) := by
  obtain ⟨hc | hg, rfl⟩ | ⟨-, hg, rfl⟩ := construct_cases h
  · simp [hc]
  · simp [hg]
  · simp [hg]

/-- Settles O21: the two outcomes of a construction, told apart by their response packets. -/
theorem allocationFailsExactlyWhenNotGranted : Obligations.AllocationFailsExactlyWhenNotGranted := by
  intro i s t hcon h
  obtain ⟨k0, k1, hk⟩ := construct_of_exec hcon h
  obtain ⟨hf, rfl⟩ | ⟨hc, hg, rfl⟩ := construct_cases hk
  · refine ⟨⟨fun _ => hf, fun _ => rfl⟩, fun _ => ⟨⟨rfl, rfl⟩, fun _ => rfl⟩, fun hc hg => ?_⟩
    simp [hc, hg] at hf
  · have hnf : ¬ (s.ctxv = true ∨ s.allocGrant = false) := by simp [hc, hg]
    have hne : packResponse .ok 0 0 ≠ packResponse .allocationFailure 0 0 := by decide
    exact ⟨⟨fun hr => absurd (Option.some.inj hr) hne, (absurd · hnf)⟩, (absurd · hnf), fun _ _ => ⟨rfl, rfl⟩⟩

/-! ### `INIT` (R103) -/

theorem exec_init (k0 k1 : Word) (s : State) : exec (.init 7 k0 k1) s = construct k0 k1 s := rfl

theorem exec_init_reserved {var : BitVec 4} (h : var ≠ 7) (k0 k1 : Word) (s : State) :
    exec (.init var k0 k1) s = .fault .reservedEncoding := if_neg h

/-- Settles O20: the packet is the command's encoding, and `INIT` is a construction from its operands. -/
theorem initConstructsContext : Obligations.InitConstructsContext := by
  refine fun s k0 k1 => ⟨decode_eq_some_iff.mpr ⟨rfl, ?_⟩, fun _ hv => exec_init_reserved hv k0 k1 s, ?_⟩
  · exact congrArg (lanes 0 k1 k0) (by decide)
  · rw [exec_init]
    exact ⟨construct_failure_frame k0 k1, construct_success_frame k0 k1⟩

/-! ### `INITB` (R105, R106) -/

theorem memRead_length (m : Memory) (addr n : Nat) : (memRead m addr n).length = n := by
  simp [memRead]

/-- A read is the read of its first bytes and then of the rest (R44). -/
theorem memRead_add (m : Memory) (addr n k : Nat) :
    memRead m addr (n + k) = memRead m addr n ++ memRead m (addr + n) k := by
  simp [memRead, List.range_add, Function.comp_def, Nat.add_assoc]

/-- The two Words of a block in memory: each from its own eight bytes (R42, R43). -/
theorem blockFromBytes_memRead (m : Memory) (addr : Nat) :
    blockFromBytes (memRead m addr 16) = (le64 (memRead m addr 8), le64 (memRead m (addr + 8) 8)) := by
  have hlen : (memRead m addr 8).length = 8 := memRead_length m addr 8
  rw [blockFromBytes, memRead_add m addr 8 8, List.take_left' hlen, List.drop_left' hlen]

/-- With a legal key region, `INITB` is a construction from the two Words there. -/
theorem exec_initb {s : State} {kaddr : Word} (h : KeyRegionLegal s kaddr.toNat) :
    exec (.initb kaddr) s =
      construct (le64 (memRead s.mem kaddr.toNat 8)) (le64 (memRead s.mem (kaddr.toNat + 8) 8)) s := by
  simp only [exec, execInitb, keyRegionLegal_iff_keyCheck.mp h, Config.blockBytes, blockFromBytes_memRead]

/-- Settles O22: the packet is the command's encoding, a check that fails is the outcome, and with a legal key region
`INITB` is a construction. -/
theorem initbConstructsContextFromMemory : Obligations.InitbConstructsContextFromMemory := by
  refine fun s kaddr => ⟨decode_eq_some_iff.mpr ⟨rfl, ?_⟩, fun h => exec_initb_refused (keyCheck_addressWrap _ h),
    fun hk h => exec_initb_refused (keyCheck_memoryNotAdmitted hk h), fun hl hf => ?_, fun hl hc hg => ?_⟩
  · exact congrArg (lanes 0 0 kaddr) (by decide)
  · rw [exec_initb hl]
    exact construct_failure_frame _ _ hf
  · rw [exec_initb hl]
    exact construct_success_frame _ _ hc hg

/-- Settles O23: both are the construction from those two Words. -/
theorem initbEqualsInitOnMemoryWords : Obligations.InitbEqualsInitOnMemoryWords := fun s _ h => by
  rw [exec_initb h, exec_init _ _ s]

/-! ### `FINISH` (R108) and the lifecycle of `CTXV` (R109) -/

theorem exec_finish_of_context {s : State} (h : s.ctxv = true) :
    exec .finish s = respond .ok 0 0 (freeRk (setCtxv false s)) := if_pos h

theorem exec_finish_of_no_context {s : State} (h : s.ctxv = false) : exec .finish s = respond .ok 0 0 s :=
  if_neg (by simp [h])

/-- Settles O24: the packet is the command's encoding; without a context the command is one response. -/
theorem finishDestroysContext : Obligations.FinishDestroysContext := by
  refine fun s => ⟨decode_eq_some_iff.mpr ⟨rfl, by decide⟩, ?_⟩
  cases hc : s.ctxv with
  | false =>
    obtain ⟨t, ht, hr, hctx, hm, hi⟩ := respond_frame .ok 0 0 s
    exact ⟨t, (exec_finish_of_no_context hc).trans ht, hr, hctx.ctxv.trans hc, fun _ => hctx.rk, hm, hi⟩
  | true => exact ⟨_, exec_finish_of_context hc, rfl, rfl, nofun, fun _ => rfl, ⟨rfl, rfl, rfl⟩⟩

/-- Settles O25: a construction and `FINISH` by their own rules; no other command changes the context. -/
theorem lifecycleOfContextBit : Obligations.LifecycleOfContextBit := by
  intro i s t h
  by_cases hcon : constructs i = true
  · obtain ⟨k0, k1, hk⟩ := construct_of_exec hcon h
    rw [if_pos hcon, construct_ctxv hk]
  · rw [if_neg hcon]
    by_cases hfin : i = .finish
    · subst hfin
      obtain ⟨-, u, hu, -, hclear, -⟩ := finishDestroysContext s
      obtain rfl : t = u := Host.Outcome.next.inj (h.symm.trans hu)
      exact hclear
    · rw [if_neg hfin]
      obtain hkeep | ⟨hcon', -⟩ | ⟨hfin', -⟩ := exec_context_cases h
      · exact hkeep.ctxv
      · exact absurd hcon' hcon
      · exact absurd hfin' hfin

end Sys2Proof.Machine
end

section
/-! PROOFS. The block engine (spec/42_block_engine.md): the running pair of each direction, decryption and encryption
as inverses of each other, and the commands `ENCBLK` and `DECBLK`. -/

namespace Sys2Proof.Machine

/-! ### One round on the pair (R115) -/

/-- An encryption round: the new word 1 enters the new word 0. -/
theorem encRound_eq (w : Word × Word) (k : Word) :
    encRound w k = (rotl64 w.1 3 ^^^ ((rotr64 w.2 8 + w.1) ^^^ k), (rotr64 w.2 8 + w.1) ^^^ k) := rfl

/-- A decryption round: the new word 0 enters the new word 1. -/
theorem decRound_eq (w : Word × Word) (k : Word) :
    decRound w k = (rotr64 (w.1 ^^^ w.2) 3, rotl64 ((w.2 ^^^ k) - rotr64 (w.1 ^^^ w.2) 3) 8) := rfl

theorem decRound_encRound (w : Word × Word) (k : Word) : decRound (encRound w k) k = w :=
  congrArg Prod.swap (roundI_roundF w.2 w.1 k)

theorem encRound_decRound (w : Word × Word) (k : Word) : encRound (decRound w k) k = w :=
  congrArg Prod.swap (roundF_roundI w.2 w.1 k)

/-! ### The running pair of each direction (R116, R119) -/

/-- The pair after the encryption rounds `0 .. i - 1` (R116). -/
def encPair (rk : Vector Word 32) (w : Word × Word) (i : Nat) : Word × Word :=
  (rk.toList.take i).foldl encRound w

theorem encPair_succ (rk : Vector Word 32) (w : Word × Word) {i : Nat} (hi : i < 32) :
    encPair rk w (i + 1) = encRound (encPair rk w i) rk[i] := by
  have hlen : i < rk.toList.length := by simpa using hi
  rw [encPair, List.take_succ_eq_append_getElem hlen, List.foldl_concat, Vector.getElem_toList, encPair]

theorem encBlock_eq_encPair (rk : Vector Word 32) (w0 w1 : Word) :
    encBlock rk w0 w1 = encPair rk (w0, w1) 32 := by
  rw [encPair, List.take_of_length_le (by simp), encBlock]

/-- The pair after the decryption rounds `31 .. i` (R119). -/
def decPair (rk : Vector Word 32) (w : Word × Word) (i : Nat) : Word × Word :=
  (rk.toList.drop i).reverse.foldl decRound w

theorem decPair_start (rk : Vector Word 32) (w : Word × Word) : decPair rk w 32 = w := by
  rw [decPair, List.drop_of_length_le (by simp), List.reverse_nil, List.foldl_nil]

theorem decPair_eq (rk : Vector Word 32) (w : Word × Word) {i : Nat} (hi : i < 32) :
    decPair rk w i = decRound (decPair rk w (i + 1)) rk[i] := by
  have hlen : i < rk.toList.length := by simpa using hi
  rw [decPair, List.drop_eq_getElem_cons hlen, List.reverse_cons, List.foldl_concat, Vector.getElem_toList, decPair]

/-- Settles O28: the two sequences are the words of the running pair. -/
theorem encBlockRunsThirtyTwoRounds : Obligations.EncBlockRunsThirtyTwoRounds := by
  intro rk w0 w1
  refine ⟨fun i => (encPair rk (w0, w1) i).1, fun i => (encPair rk (w0, w1) i).2, rfl, rfl, fun i => ?_,
    encBlock_eq_encPair rk w0 w1⟩
  simp only [encPair_succ rk (w0, w1) i.isLt, encRound_eq, Fin.getElem_fin, and_self]

/-- Settles O29: the two sequences are the words of the running pair, from index 32 down. -/
theorem decBlockRunsThirtyTwoRounds : Obligations.DecBlockRunsThirtyTwoRounds := by
  intro rk w0 w1
  have hstart := decPair_start rk (w0, w1)
  refine ⟨fun i => (decPair rk (w0, w1) i).1, fun i => (decPair rk (w0, w1) i).2, congrArg Prod.fst hstart,
    congrArg Prod.snd hstart, fun i => ?_, rfl⟩
  simp only [decPair_eq rk (w0, w1) i.isLt, decRound_eq, Fin.getElem_fin, and_self]

/-! ### Decryption and encryption undo each other (R121) -/

/-- Rounds that are undone one by one are undone together, in the reverse order of their subkeys. -/
theorem foldl_reverse_foldl {f g : Word × Word → Word → Word × Word} (h : ∀ w k, g (f w k) k = w)
    (ks : List Word) (w : Word × Word) : ks.reverse.foldl g (ks.foldl f w) = w := by
  induction ks generalizing w with
  | nil => rfl
  | cons k ks ih => rw [List.foldl_cons, List.reverse_cons, List.foldl_concat, ih, h]

theorem decBlock_encBlock (rk : Vector Word 32) (w0 w1 : Word) :
    decBlock rk (encBlock rk w0 w1).1 (encBlock rk w0 w1).2 = (w0, w1) :=
  foldl_reverse_foldl decRound_encRound rk.toList (w0, w1)

theorem encBlock_decBlock (rk : Vector Word 32) (w0 w1 : Word) :
    encBlock rk (decBlock rk w0 w1).1 (decBlock rk w0 w1).2 = (w0, w1) := by
  have h := foldl_reverse_foldl encRound_decRound rk.toList.reverse (w0, w1)
  rwa [List.reverse_reverse] at h

/-- Settles O32: each order has its lemma. -/
theorem blockRoundTrip : Obligations.BlockRoundTrip := fun rk w0 w1 =>
  ⟨decBlock_encBlock rk w0 w1, encBlock_decBlock rk w0 w1⟩

/-! ### The commands `ENCBLK` and `DECBLK` (R117, R120) -/

/-- With a context, `ENCBLK` is one response after its rounds. -/
theorem exec_encblk_of_context (p0 p1 : Word) {s : State} (h : s.ctxv = true) :
    exec (.encblk p0 p1) s = respond .ok (encBlock s.rk p0 p1).1 (encBlock s.rk p0 p1).2 (freeWork s) := if_pos h

theorem exec_encblk_of_no_context (p0 p1 : Word) {s : State} (h : s.ctxv = false) :
    exec (.encblk p0 p1) s = .fault .invalidContext := if_neg (by simp [h])

/-- With a context, `DECBLK` is one response after its rounds. -/
theorem exec_decblk_of_context (c0 c1 : Word) {s : State} (h : s.ctxv = true) :
    exec (.decblk c0 c1) s = respond .ok (decBlock s.rk c0 c1).1 (decBlock s.rk c0 c1).2 (freeWork s) := if_pos h

theorem exec_decblk_of_no_context (c0 c1 : Word) {s : State} (h : s.ctxv = false) :
    exec (.decblk c0 c1) s = .fault .invalidContext := if_neg (by simp [h])

/-- An answer after rounds touches, besides the port, only the working registers (R26). -/
theorem respond_freeWork_frame (st : Status) (r0 r1 : Word) (s : State) :
    ∃ t, respond st r0 r1 (freeWork s) = .next t ∧ t.response = some (packResponse st r0 r1) ∧
      KeepsContext s t ∧ KeepsMemory s t ∧ KeepsInputs s t :=
  ⟨_, rfl, rfl, ⟨rfl, rfl⟩, fun _ => rfl, ⟨rfl, rfl, rfl⟩⟩

/-- Settles O30: the packet is the command's encoding, and the context decides between the fault and the answer. -/
theorem encblkAnswersCiphertext : Obligations.EncblkAnswersCiphertext := by
  refine fun s p0 p1 => ⟨decode_eq_some_iff.mpr ⟨rfl, ?_⟩, exec_encblk_of_no_context p0 p1, fun hc => ?_⟩
  · exact congrArg (lanes 0 p1 p0) (by decide)
  · rw [exec_encblk_of_context p0 p1 hc]
    exact respond_freeWork_frame .ok _ _ s

/-- Settles O31: the packet is the command's encoding, and the context decides between the fault and the answer. -/
theorem decblkAnswersPlaintext : Obligations.DecblkAnswersPlaintext := by
  refine fun s c0 c1 => ⟨decode_eq_some_iff.mpr ⟨rfl, ?_⟩, exec_decblk_of_no_context c0 c1, fun hc => ?_⟩
  · exact congrArg (lanes 0 c1 c0) (by decide)
  · rw [exec_decblk_of_context c0 c1 hc]
    exact respond_freeWork_frame .ok _ _ s

end Sys2Proof.Machine
end

section
/-! PROOFS. The buffer engine (spec/43_buffer_engine.md): the buffer command case by case, its output chunks in terms
of its input chunks, and the commands `ENCBUF` and `DECBUF`. -/

namespace Sys2Proof.Machine

/-! ### The buffer command case by case (R126, R127, R129, R147) -/

theorem processBuffer_of_no_context (f : Vector Word 32 → Word → Word → Word × Word) (src dst len : Word)
    {s : State} (hc : s.ctxv = false) : processBuffer f src dst len s = .fault .invalidContext := by
  simp [processBuffer, hc]

theorem processBuffer_of_bad_length (f : Vector Word 32 → Word → Word → Word × Word) (src dst : Word)
    {len : Word} {s : State} (hc : s.ctxv = true) (hl : len.toNat % 16 ≠ 0) :
    processBuffer f src dst len s = respond .invalidLength 0 0 s := by
  simp [processBuffer, hc, hl]

theorem processBuffer_of_zero_length (f : Vector Word 32 → Word → Word → Word × Word) (src dst : Word)
    {s : State} (hc : s.ctxv = true) : processBuffer f src dst 0 s = respond .ok 0 0 s := by
  simp [processBuffer, hc]

/-- With chunks to process and legal regions, the command is one answer after its chunks. -/
theorem processBuffer_of_regionsLegal (f : Vector Word 32 → Word → Word → Word × Word) {src dst len : Word}
    {s : State} (hc : s.ctxv = true) (hl : len.toNat % 16 = 0) (hz : len.toNat ≠ 0)
    (hlegal : RegionsLegal s src.toNat dst.toNat len.toNat) :
    processBuffer f src dst len s = respond .ok 0 0
      (freeChk (freeWork
        { s with mem := processChunks (f s.rk) (len.toNat / 16) src.toNat dst.toNat s.mem })) := by
  have hchunks : len.toNat / 16 ≠ 0 := by omega
  simp [processBuffer, hc, hl, hchunks, regionsLegal_iff_bufCheck.mp hlegal]

/-- Settles O38: the length test comes before any use of `SRC` and `DST`, and its answer touches only the port. -/
theorem invalidLengthIsRejected : Obligations.InvalidLengthIsRejected := by
  intro s src dst len hc hl i hi
  obtain ⟨f, hf⟩ := exec_eq_processBuffer hi s
  rw [hf, processBuffer_of_bad_length f src dst hc hl]
  exact respond_frame .invalidLength 0 0 s

/-- Settles O39: with a context the command is one response, without one the fault. -/
theorem zeroLengthIsAccepted : Obligations.ZeroLengthIsAccepted := by
  intro s src dst i hi
  obtain ⟨f, hf⟩ := exec_eq_processBuffer hi s
  rw [hf]
  refine ⟨fun hc => ?_, processBuffer_of_no_context f src dst 0⟩
  rw [processBuffer_of_zero_length f src dst hc]
  exact respond_frame .ok 0 0 s

/-- Settles O46: only a construction and `FINISH` change the context, and neither has buffer operands. -/
theorem bufferCommandsKeepContext : Obligations.BufferCommandsKeepContext := by
  intro i s t hb h
  obtain hkeep | ⟨hcon, -⟩ | ⟨rfl, -⟩ := exec_context_cases h
  · exact hkeep
  · exact absurd (bufferOperands_of_constructs hcon) hb
  · exact absurd rfl hb

/-! ### Reading regions chunk by chunk (R44) -/

/-- Two reads give the same list exactly when they agree byte by byte. -/
theorem memRead_eq_iff {m m' : Memory} {a a' n : Nat} :
    memRead m a n = memRead m' a' n ↔ ∀ j < n, Memory.read m (a + j) = Memory.read m' (a' + j) := by
  simp [memRead]

/-- Two regions of whole chunks that agree chunk by chunk agree byte by byte. -/
theorem read_eq_of_chunks_eq {m m' : Memory} {a a' n : Nat} (hn : n % 16 = 0)
    (h : ∀ i < n / 16, memRead m (a + 16 * i) 16 = memRead m' (a' + 16 * i) 16) {j : Nat} (hj : j < n) :
    Memory.read m (a + j) = Memory.read m' (a' + j) := by
  have hbyte := memRead_eq_iff.mp (h (j / 16) (by omega)) (j % 16) (Nat.mod_lt j (by decide))
  rwa [Nat.add_assoc, Nat.add_assoc, Nat.div_add_mod] at hbyte

/-- What `MemWrite` wrote, `MemRead` reads back (R44, R45). -/
theorem memRead_memWrite {m : Memory} {addr : Nat} {bs : List Byte} (hw : Memory.wf m = true)
    (hb : addr + bs.length ≤ 2 ^ 64) : memRead (memWrite m addr bs) addr bs.length = bs := by
  refine List.ext_getElem (memRead_length _ _ _) fun j _ hj => ?_
  simp only [memRead, List.getElem_map, List.getElem_range]
  exact read_memWrite_getElem hw hb j hj

/-! ### The output chunks of a run (R126, R131, R135) -/

/-- A block function on the 16 bytes of a chunk (R43). -/
def blockOnBytes (f : Word → Word → Word × Word) (bs : List Byte) : List Byte :=
  bytesFromBlock (f (blockFromBytes bs).1 (blockFromBytes bs).2)

theorem blockOnBytes_length (f : Word → Word → Word × Word) (bs : List Byte) : (blockOnBytes f bs).length = 16 :=
  bytesFromBlock_length _

theorem processChunk_eq (f : Word → Word → Word × Word) (src dst : Nat) (m : Memory) :
    processChunk f src dst m = memWrite m dst (blockOnBytes f (memRead m src 16)) := rfl

theorem memRead_processChunk (f : Word → Word → Word × Word) (src : Nat) {dst : Nat} {m : Memory}
    (hw : Memory.wf m = true) (hd : dst + 16 ≤ 2 ^ 64) :
    memRead (processChunk f src dst m) dst 16 = blockOnBytes f (memRead m src 16) := by
  have hlen := blockOnBytes_length f (memRead m src 16)
  have h := memRead_memWrite hw (addr := dst) (bs := blockOnBytes f (memRead m src 16)) (by rwa [hlen])
  rwa [hlen] at h

/-- Each output chunk comes from the input chunk as it was before the run: the chunks written earlier lie before it
when in place, and elsewhere when disjoint. -/
theorem memRead_processChunks (f : Word → Word → Word × Word) {n src dst : Nat} {m : Memory}
    (hw : Memory.wf m = true) (hd : dst + 16 * n ≤ 2 ^ 64)
    (hsame : src = dst ∨ src + 16 * n ≤ dst ∨ dst + 16 * n ≤ src) {i : Nat} (hi : i < n) :
    memRead (processChunks f n src dst m) (dst + 16 * i) 16 = blockOnBytes f (memRead m (src + 16 * i) 16) := by
  induction n generalizing src dst m i with
  | zero => simp at hi
  | succ n ih =>
    have hfit : dst + 16 ≤ 2 ^ 64 := by omega
    have hw' : Memory.wf (processChunk f src dst m) = true := processChunk_wf f hw hfit
    cases i with
    | zero =>
      calc memRead (processChunks f n (src + 16) (dst + 16) (processChunk f src dst m)) dst 16
          = memRead (processChunk f src dst m) dst 16 :=
            memRead_congr fun j hj => read_processChunks_outside f hw' (by omega) (by omega)
        _ = blockOnBytes f (memRead m src 16) := memRead_processChunk f src hw hfit
    | succ i =>
      have hdst : dst + 16 * (i + 1) = dst + 16 + 16 * i := by omega
      have hsrc : src + 16 * (i + 1) = src + 16 + 16 * i := by omega
      have hinput : memRead (processChunk f src dst m) (src + 16 + 16 * i) 16 = memRead m (src + 16 + 16 * i) 16 :=
        memRead_congr fun j hj => read_processChunk_outside f hw hfit (by omega)
      rw [hdst, hsrc, ← hinput]
      exact ih (src := src + 16) (dst := dst + 16) hw' (by omega) (by omega) (by omega)

/-- A buffer command that answers `OK` had whole chunks, and maps each by its block function. -/
theorem processBuffer_output {f : Vector Word 32 → Word → Word → Word × Word} {src dst len : Word} {s t : State}
    (hw : Memory.wf s.mem = true) (h : processBuffer f src dst len s = .next t)
    (hok : t.response = some (packResponse .ok 0 0)) :
    len.toNat % 16 = 0 ∧ ∀ i < len.toNat / 16,
      memRead t.mem (dst.toNat + 16 * i) 16 =
        blockOnBytes (f s.rk) (memRead s.mem (src.toNat + 16 * i) 16) := by
  obtain ⟨-, ⟨-, rfl⟩ | ⟨hz, -⟩ | ⟨hl, -, hck, rfl⟩⟩ := processBuffer_cases h
  · have hne : packResponse .invalidLength 0 0 ≠ packResponse .ok 0 0 := by decide
    exact absurd (Option.some.inj hok) hne
  · simp [hz]
  · have hlegal := regionsLegal_iff_bufCheck.mpr hck
    have hlen : 16 * (len.toNat / 16) = len.toNat := by omega
    refine ⟨hl, fun i hi => memRead_processChunks (f s.rk) hw ?_ ?_ hi⟩
    · rw [hlen]
      exact hlegal.dstFits
    · rw [hlen]
      exact hlegal.sameOrDisjoint

/-- Under the host's duties a buffer command answers `OK`, maps the chunks, and changes nothing else a host sees. -/
theorem processBuffer_blockwise (f : Vector Word 32 → Word → Word → Word × Word) {src dst len : Word} {s : State}
    (hw : Memory.wf s.mem = true) (hc : s.ctxv = true) (hl : len.toNat % 16 = 0) (hz : len.toNat ≠ 0)
    (hlegal : RegionsLegal s src.toNat dst.toNat len.toNat) :
    ∃ t, processBuffer f src dst len s = .next t ∧ t.response = some (packResponse .ok 0 0) ∧
      KeepsContext s t ∧ KeepsInputs s t ∧ KeepsMemoryOutside dst.toNat len.toNat s t ∧
      ∀ i < len.toNat / 16,
        memRead t.mem (dst.toNat + 16 * i) 16 =
          blockOnBytes (f s.rk) (memRead s.mem (src.toNat + 16 * i) 16) := by
  have h := processBuffer_of_regionsLegal f hc hl hz hlegal
  exact ⟨_, h, rfl, ⟨rfl, rfl⟩, ⟨rfl, rfl, rfl⟩, processBuffer_keepsMemoryOutside hw h,
    (processBuffer_output hw h rfl).2⟩

/-! ### `ENCBUF` and `DECBUF` (R126, R130) -/

theorem exec_encbuf (src dst len : Word) (s : State) :
    exec (.encbuf src dst len) s = processBuffer encBlock src dst len s := rfl

theorem exec_decbuf (src dst len : Word) (s : State) :
    exec (.decbuf src dst len) s = processBuffer decBlock src dst len s := rfl

/-- Settles O41: the packet is the command's encoding, and the command is a buffer command over `EncBlock`. -/
theorem encbufEqualsBlockwiseEncryption : Obligations.EncbufEqualsBlockwiseEncryption := by
  refine fun s src dst len => ⟨decode_eq_some_iff.mpr ⟨rfl, ?_⟩, ?_⟩
  · exact congrArg (lanes len dst src) (by decide)
  · rw [exec_encbuf]
    exact processBuffer_blockwise encBlock

/-- Settles O42: the packet is the command's encoding, and the command is a buffer command over `DecBlock`. -/
theorem decbufEqualsBlockwiseDecryption : Obligations.DecbufEqualsBlockwiseDecryption := by
  refine fun s src dst len => ⟨decode_eq_some_iff.mpr ⟨rfl, ?_⟩, ?_⟩
  · exact congrArg (lanes len dst src) (by decide)
  · rw [exec_decbuf]
    exact processBuffer_blockwise decBlock

/-- On a chunk's bytes, decryption undoes encryption: the byte conversions cancel, and then the blocks do (R121). -/
theorem blockOnBytes_decBlock_encBlock (rk : Vector Word 32) {bs : List Byte} (hbs : bs.length = 16) :
    blockOnBytes (decBlock rk) (blockOnBytes (encBlock rk) bs) = bs := by
  obtain ⟨hblock, hbytes⟩ := blockByteConversionsInverse
  rw [blockOnBytes, blockOnBytes, hblock, decBlock_encBlock]
  exact hbytes bs hbs

/-- Settles O43: chunk by chunk, `DECBUF` reads what `ENCBUF` wrote and maps it back. -/
theorem bufferRoundTrip : Obligations.BufferRoundTrip := by
  intro src dst out len s t t' u hw hw' henc hencOk hrk hregion hdec hdecOk j hj
  have hkeep := bufferCommandsKeepContext (.encbuf src dst len) s t (Option.some_ne_none _) henc
  rw [exec_encbuf] at henc
  rw [exec_decbuf] at hdec
  obtain ⟨hl, hencOut⟩ := processBuffer_output hw henc hencOk
  obtain ⟨-, hdecOut⟩ := processBuffer_output hw' hdec hdecOk
  refine read_eq_of_chunks_eq hl (fun i hi => ?_) hj
  have hsame : memRead t'.mem (dst.toNat + 16 * i) 16 = memRead t.mem (dst.toNat + 16 * i) 16 := by
    refine memRead_congr fun k hk => ?_
    rw [Nat.add_assoc]
    exact hregion (16 * i + k) (by omega)
  rw [hdecOut i hi, hsame, hencOut i hi, hrk, hkeep.rk]
  exact blockOnBytes_decBlock_encBlock s.rk (memRead_length _ _ _)

/-- Settles O44: both output chunks are one function of `RK` and the input chunk's bytes. -/
theorem equalChunksGiveEqualChunks : Obligations.EqualChunksGiveEqualChunks := by
  intro src dst len src' dst' len' s t s' t' i i' hw hw' hrk h hok h' hok' hi hi' hchunk
  rw [exec_encbuf] at h h'
  obtain ⟨-, hout⟩ := processBuffer_output hw h hok
  obtain ⟨-, hout'⟩ := processBuffer_output hw' h' hok'
  rw [hout i hi, hout' i' hi', hrk, hchunk]

/-- Two runs of one buffer command on one input leave the same bytes, wherever each puts them. -/
theorem processBuffer_output_unique {f : Vector Word 32 → Word → Word → Word × Word} {src dst dst' len : Word}
    {s t t' : State} (hw : Memory.wf s.mem = true) (h : processBuffer f src dst len s = .next t)
    (h' : processBuffer f src dst' len s = .next t') (hok : t.response = some (packResponse .ok 0 0))
    (hok' : t'.response = some (packResponse .ok 0 0)) :
    ∀ j < len.toNat, Memory.read t.mem (dst.toNat + j) = Memory.read t'.mem (dst'.toNat + j) := by
  obtain ⟨hl, hout⟩ := processBuffer_output hw h hok
  obtain ⟨-, hout'⟩ := processBuffer_output hw h' hok'
  exact fun j => read_eq_of_chunks_eq hl fun i hi => (hout i hi).trans (hout' i hi).symm

/-- Settles O45: in place is one of the places a run can put its output. -/
theorem inPlaceEqualsDisjoint : Obligations.InPlaceEqualsDisjoint := by
  rintro src dst len s t t' hw (⟨h, h'⟩ | ⟨h, h'⟩) hok hok'
  · rw [exec_encbuf] at h h'
    exact processBuffer_output_unique hw h h' hok hok'
  · rw [exec_decbuf] at h h'
    exact processBuffer_output_unique hw h h' hok hok'

end Sys2Proof.Machine
end

section
/-! PROOFS. Exceptions (spec/60_exceptions.md): the idle engine, the missing context, the error statuses, when a
command answers, and which of several conditions gives its ending. -/

namespace Sys2Proof.Machine

/-! ### The idle engine (R157) and the missing context (R147) -/

/-- Settles O8: the step takes an event, and there is none. -/
theorem idleEngineHoldsState : Obligations.IdleEngineHoldsState := by
  intro s hi
  simp only [step, hi]

/-- Settles O34: each of the four commands tests the context first. -/
theorem noContextIsInvalidContext : Obligations.NoContextIsInvalidContext := by
  intro i s hn hc
  cases i with
  | encblk p0 p1 => exact exec_encblk_of_no_context p0 p1 hc
  | decblk c0 c1 => exact exec_decblk_of_no_context c0 c1 hc
  | encbuf src dst len => exact processBuffer_of_no_context encBlock src dst len hc
  | decbuf src dst len => exact processBuffer_of_no_context decBlock src dst len hc
  | _ => cases hn

/-- A block or buffer command that answers had a context. -/
theorem ctxv_of_exec {i : Instr} {s t : State} (hn : needsContext i = true) (h : exec i s = .next t) :
    s.ctxv = true := by
  by_contra hc
  rw [noContextIsInvalidContext i s hn (by simpa using hc)] at h
  cases h

/-! ### The error statuses (R145) -/

/-- A command that answers says `OK`, or its condition of row 3 or row 8 of R152 holds and its response is all
that changes. -/
theorem exec_status_cases {i : Instr} {s t : State} (h : exec i s = .next t) :
    (∃ r0 r1, t.response = some (packResponse .ok r0 r1)) ∨
    (BadLength i ∧ t = { s with response := some (packResponse .invalidLength 0 0) }) ∨
    (AllocationFails i s ∧ t = { s with response := some (packResponse .allocationFailure 0 0) }) := by
  obtain ⟨hc, k0, k1, hk⟩ | ⟨-, ht⟩ | ⟨-, r0, r1, ht⟩ | ⟨f, src, dst, len, hb, hp⟩ := exec_cases h
  · obtain ⟨hf, ht⟩ | ⟨-, -, rfl⟩ := construct_cases hk
    · exact .inr (.inr ⟨⟨hc, hf⟩, ht⟩)
    · exact .inl ⟨0, 0, rfl⟩
  · refine .inl ⟨0, 0, ?_⟩
    rw [ht]
    split <;> rfl
  · obtain rfl | ⟨-, rfl⟩ := ht <;> exact .inl ⟨r0, r1, rfl⟩
  · obtain ⟨-, ⟨hl, ht⟩ | ⟨-, rfl⟩ | ⟨-, -, -, rfl⟩⟩ := processBuffer_cases hp
    · exact .inr (.inl ⟨⟨_, _, _, hb, hl⟩, ht⟩)
    · exact .inl ⟨0, 0, rfl⟩
    · exact .inl ⟨0, 0, rfl⟩

/-- Settles O48: with an error status the response is all that changes. -/
theorem errorStatusChangesNothing : Obligations.ErrorStatusChangesNothing := by
  intro i s t p h hp hne
  obtain ⟨r0, r1, hok⟩ | ⟨-, rfl⟩ | ⟨-, rfl⟩ := exec_status_cases h
  · obtain rfl : packResponse .ok r0 r1 = p := Option.some.inj (hok.symm.trans hp)
    exact absurd (responseStatus_packResponse .ok r0 r1) hne
  · exact ⟨⟨rfl, rfl⟩, fun _ => rfl, ⟨rfl, rfl, rfl⟩⟩
  · exact ⟨⟨rfl, rfl⟩, fun _ => rfl, ⟨rfl, rfl, rfl⟩⟩

/-! ### When a command answers (R140, R168, R175) -/

theorem construct_answers (k0 k1 : Word) (s : State) : ∃ t, construct k0 k1 s = .next t := by
  by_cases h : s.ctxv = true ∨ s.allocGrant = false
  · exact ⟨_, construct_eq_failure k0 k1 h⟩
  · obtain ⟨hc, hg⟩ : s.ctxv = false ∧ s.allocGrant = true := by simpa using h
    exact ⟨_, construct_eq_success k0 k1 hc hg⟩

/-- `INITB` answers exactly when its key region is legal: the construction after the check always answers. -/
theorem execInitb_answers_iff {kaddr : Word} {s : State} :
    (∃ t, exec (.initb kaddr) s = .next t) ↔ KeyRegionLegal s kaddr.toNat := by
  constructor
  · rintro ⟨t, h⟩
    rw [keyRegionLegal_iff_keyCheck]
    cases hk : keyCheck s.admission kaddr.toNat with
    | none => rfl
    | some r =>
      rw [exec_initb_refused hk] at h
      cases h
  · intro hl
    rw [exec_initb hl]
    exact construct_answers _ _ s

/-- A buffer command answers exactly when there is a context and, if it has chunks to process, its regions are
legal. -/
theorem processBuffer_answers_iff {f : Vector Word 32 → Word → Word → Word × Word} {src dst len : Word} {s : State} :
    (∃ t, processBuffer f src dst len s = .next t) ↔
      s.ctxv = true ∧
        (len.toNat % 16 = 0 → len.toNat ≠ 0 → RegionsLegal s src.toNat dst.toNat len.toNat) := by
  constructor
  · rintro ⟨t, h⟩
    obtain ⟨hc, ⟨hl, -⟩ | ⟨hz, -⟩ | ⟨-, -, hck, -⟩⟩ := processBuffer_cases h
    · exact ⟨hc, fun hl' => absurd hl' hl⟩
    · exact ⟨hc, fun _ hz' => absurd hz hz'⟩
    · exact ⟨hc, fun _ _ => regionsLegal_iff_bufCheck.mpr hck⟩
  · rintro ⟨hc, hlegal⟩
    by_cases hl : len.toNat % 16 = 0
    · by_cases hz : len.toNat = 0
      · obtain rfl : len = 0 := BitVec.eq_of_toNat_eq hz
        exact ⟨_, processBuffer_of_zero_length f src dst hc⟩
      · exact ⟨_, processBuffer_of_regionsLegal f hc hl hz (hlegal hl hz)⟩
    · exact ⟨_, processBuffer_of_bad_length f src dst hc hl⟩

/-- Settles O50, command by command. -/
theorem answersExactlyUnderHostDuties : Obligations.AnswersExactlyUnderHostDuties := by
  intro i s
  cases i with
  | init var k0 k1 =>
    constructor
    · rintro ⟨t, h⟩
      by_contra hv
      rw [exec_init_reserved hv] at h
      cases h
    · rintro rfl
      exact construct_answers k0 k1 s
  | initb kaddr => exact execInitb_answers_iff
  | encblk p0 p1 => exact ⟨fun ⟨_, h⟩ => ctxv_of_exec rfl h, fun hc => ⟨_, exec_encblk_of_context p0 p1 hc⟩⟩
  | decblk c0 c1 => exact ⟨fun ⟨_, h⟩ => ctxv_of_exec rfl h, fun hc => ⟨_, exec_decblk_of_context c0 c1 hc⟩⟩
  | encbuf src dst len => exact processBuffer_answers_iff
  | decbuf src dst len => exact processBuffer_answers_iff
  | finish =>
    refine iff_of_true ?_ trivial
    obtain ⟨-, t, ht, -⟩ := finishDestroysContext s
    exact ⟨t, ht⟩
  | rndf x y k => exact iff_of_true ⟨_, exec_rndf x y k s⟩ trivial
  | rndi x y k => exact iff_of_true ⟨_, exec_rndi x y k s⟩ trivial

/-! ### Commands that hold no state, in either order (R156, R123) -/

/-- Such a command, when it answers, leaves the context. -/
theorem exec_keepsContext_of_holdsState {i : Instr} {s t : State} (hi : holdsState i = true)
    (h : exec i s = .next t) : KeepsContext s t := by
  obtain hkeep | ⟨hcon, -⟩ | ⟨rfl, -⟩ := exec_context_cases h
  · exact hkeep
  · simp [constructs_of_holdsState hi] at hcon
  · cases hi

/-- Such a command, when it answers, leaves memory. -/
theorem exec_keepsMemory_of_holdsState {i : Instr} {s t : State} (hi : holdsState i = true)
    (h : exec i s = .next t) : KeepsMemory s t := fun a => by
  rw [exec_keeps_mem (bufferOperands_of_holdsState hi) h]

theorem response_of_respond {st : Status} {r0 r1 : Word} {s t : State} (h : respond st r0 r1 s = .next t) :
    t.response = some (packResponse st r0 r1) := by
  rw [respond_eq_next.mp h]

/-- What such a command answers is read off `RK` alone. -/
theorem exec_response_of_holdsState {i : Instr} (hi : holdsState i = true) :
    ∃ f : Vector Word 32 → Word × Word, ∀ s t, exec i s = .next t →
      t.response = some (packResponse .ok (f s.rk).1 (f s.rk).2) := by
  cases i with
  | encblk p0 p1 =>
    refine ⟨(encBlock · p0 p1), fun s t h => ?_⟩
    exact response_of_respond ((exec_encblk_of_context p0 p1 (ctxv_of_exec rfl h)).symm.trans h)
  | decblk c0 c1 =>
    refine ⟨(decBlock · c0 c1), fun s t h => ?_⟩
    exact response_of_respond ((exec_decblk_of_context c0 c1 (ctxv_of_exec rfl h)).symm.trans h)
  | rndf x y k => exact ⟨fun _ => roundF x y k, fun s t h => response_of_respond h⟩
  | rndi x y k => exact ⟨fun _ => roundI x y k, fun s t h => response_of_respond h⟩
  | _ => cases hi

/-- Settles O35: a response is read off `RK`, which the other command leaves as it was. -/
theorem statelessCommandsCommute : Obligations.StatelessCommandsCommute := by
  intro i j s t u t' u' hi hj hit hju hjt' hiu'
  have ht := exec_keepsContext_of_holdsState hi hit
  have hu := exec_keepsContext_of_holdsState hj hju
  have ht' := exec_keepsContext_of_holdsState hj hjt'
  have hu' := exec_keepsContext_of_holdsState hi hiu'
  obtain ⟨f, hf⟩ := exec_response_of_holdsState hi
  obtain ⟨g, hg⟩ := exec_response_of_holdsState hj
  refine ⟨?_, ?_, ⟨hu.ctxv.trans ht.ctxv, hu.rk.trans ht.rk⟩, ⟨hu'.ctxv.trans ht'.ctxv, hu'.rk.trans ht'.rk⟩,
    fun a => ?_, fun a => ?_⟩
  · rw [hf s t hit, hf t' u' hiu', ht'.rk]
  · rw [hg s t' hjt', hg t u hju, ht.rk]
  · exact (exec_keepsMemory_of_holdsState hj hju a).trans (exec_keepsMemory_of_holdsState hi hit a)
  · exact (exec_keepsMemory_of_holdsState hi hiu' a).trans (exec_keepsMemory_of_holdsState hj hjt' a)

/-! ### A result has one ending -/

theorem status_eq_of_packResponse_eq {st st' : Status} {r0 r1 r0' r1' : Word}
    (h : packResponse st r0 r1 = packResponse st' r0' r1') : st = st' := by
  have hcode : statusCode st = statusCode st' := by simpa using congrArg responseStatus h
  revert hcode
  cases st <;> cases st' <;> decide

theorem endsIn_next_iff {t : State} {st : Status} {r0 r1 : Word} {e : Ending}
    (h : t.response = some (packResponse st r0 r1)) : EndsIn (.next t) e ↔ e = .status st := by
  cases e with
  | status st' =>
    rw [Ending.status.injEq]
    constructor
    · rintro ⟨_, r0', r1', ⟨⟩, h'⟩
      exact status_eq_of_packResponse_eq (Option.some.inj (h'.symm.trans h))
    · rintro rfl
      exact ⟨t, r0, r1, rfl, h⟩
  | fault f => exact iff_of_false nofun nofun
  | refused f => exact iff_of_false nofun nofun

theorem endsIn_fault_iff {f : Fault} {e : Ending} : EndsIn (.fault f) e ↔ e = .fault f := by
  cases e <;> simp [EndsIn, eq_comm]

theorem endsIn_refused_iff {f : Refusal} {e : Ending} : EndsIn (.refused f) e ↔ e = .refused f := by
  cases e <;> simp [EndsIn, eq_comm]

/-- Whatever ending a result is shown to have is its only one. -/
theorem endsIn_iff_eq {r : Result} {e e' : Ending} (h : EndsIn r e) : EndsIn r e' ↔ e' = e := by
  cases e with
  | status st =>
    obtain ⟨t, r0, r1, rfl, hp⟩ := h
    exact endsIn_next_iff hp
  | fault f =>
    obtain rfl : r = .fault f := h
    exact endsIn_fault_iff
  | refused f =>
    obtain rfl : r = .refused f := h
    exact endsIn_refused_iff

/-! ### The conditions of R152, on each command with regions -/

section BufferCommand

variable {i : Instr} {src dst len : Word} (hi : i = .encbuf src dst len ∨ i = .decbuf src dst len)
include hi

theorem bufferOperands_of_buffer : bufferOperands i = some (src.toNat, dst.toNat, len.toNat) := by
  obtain rfl | rfl := hi <;> rfl

theorem regionsOf_of_buffer :
    regionsOf i = [(src.toNat, len.toNat, .read), (dst.toNat, len.toNat, .write)] := by
  obtain rfl | rfl := hi <;> rfl

theorem needsContext_of_buffer : needsContext i = true := by
  obtain rfl | rfl := hi <;> rfl

theorem badLength_iff : BadLength i ↔ len.toNat % 16 ≠ 0 := by
  simp [BadLength, bufferOperands_of_buffer hi]

theorem zeroLength_iff : ZeroLength i ↔ len.toNat = 0 := by
  simp [ZeroLength, bufferOperands_of_buffer hi]

theorem regionWraps_iff :
    RegionWraps i ↔ 2 ^ 64 < src.toNat + len.toNat ∨ 2 ^ 64 < dst.toNat + len.toNat := by
  simp [RegionWraps, regionsOf_of_buffer hi, or_and_right, exists_or, and_assoc]

/-- Two regions of one length share a byte when each starts below the other's end. -/
theorem partlyOverlaps_iff :
    PartlyOverlaps i ↔
      src.toNat ≠ dst.toNat ∧ src.toNat < dst.toNat + len.toNat ∧ dst.toNat < src.toNat + len.toNat := by
  unfold PartlyOverlaps
  rw [bufferOperands_of_buffer hi]
  constructor
  · rintro ⟨_, _, _, ⟨⟩, hne, x, hsrc, hdst⟩
    exact ⟨hne, by omega, by omega⟩
  · rintro ⟨hne, hsd, hds⟩
    exact ⟨_, _, _, rfl, hne, max src.toNat dst.toNat, by omega, by omega⟩

theorem byteNotAdmitted_iff {s : State} :
    ByteNotAdmitted i s ↔ ∃ j < len.toNat,
      admits s.admission (src.toNat + j) .read = false ∨ admits s.admission (dst.toNat + j) .write = false := by
  simp [ByteNotAdmitted, regionsOf_of_buffer hi, or_and_right, exists_or, and_assoc, and_or_left]

/-- Regions that neither wrap nor partly overlap meet the host's duties on addresses (R59). -/
theorem regions_apart (hw : ¬ RegionWraps i) (ho : ¬ PartlyOverlaps i) :
    src.toNat + len.toNat ≤ 2 ^ 64 ∧ dst.toNat + len.toNat ≤ 2 ^ 64 ∧
      (src.toNat = dst.toNat ∨ src.toNat + len.toNat ≤ dst.toNat ∨ dst.toNat + len.toNat ≤ src.toNat) := by
  rw [regionWraps_iff hi] at hw
  rw [partlyOverlaps_iff hi] at ho
  omega

theorem regionsLegal_of_no_condition {s : State} (hw : ¬ RegionWraps i) (ho : ¬ PartlyOverlaps i)
    (hn : ¬ ByteNotAdmitted i s) :
    RegionsLegal s src.toNat dst.toNat len.toNat := by
  obtain ⟨hsrc, hdst, hapart⟩ := regions_apart hi hw ho
  have hadm : ∀ j < len.toNat,
      admits s.admission (src.toNat + j) .read = true ∧ admits s.admission (dst.toNat + j) .write = true := by
    simpa [byteNotAdmitted_iff hi] using hn
  exact ⟨hsrc, hdst, hapart, fun j hj => (hadm j hj).1, fun j hj => (hadm j hj).2⟩

end BufferCommand

theorem regionWraps_initb_iff {kaddr : Word} : RegionWraps (.initb kaddr) ↔ 2 ^ 64 < kaddr.toNat + 16 := by
  simp [RegionWraps, regionsOf]

theorem byteNotAdmitted_initb_iff {kaddr : Word} {s : State} :
    ByteNotAdmitted (.initb kaddr) s ↔ ∃ j < 16, admits s.admission (kaddr.toNat + j) .read = false := by
  simp [ByteNotAdmitted, regionsOf]

theorem keyRegionLegal_of_no_condition {kaddr : Word} {s : State} (hw : ¬ RegionWraps (.initb kaddr))
    (hn : ¬ ByteNotAdmitted (.initb kaddr) s) : KeyRegionLegal s kaddr.toNat where
  fits := by
    rw [regionWraps_initb_iff] at hw
    omega
  canRead := by simpa [byteNotAdmitted_initb_iff] using hn

/-- Only `ENCBUF` and `DECBUF` have buffer operands. -/
theorem buffer_of_bufferOperands {i : Instr} {src dst len : Nat} (h : bufferOperands i = some (src, dst, len)) :
    ∃ a b n, i = .encbuf a b n ∨ i = .decbuf a b n := by
  cases i with
  | encbuf a b n => exact ⟨a, b, n, .inl rfl⟩
  | decbuf a b n => exact ⟨a, b, n, .inr rfl⟩
  | _ => cases h

/-- Only `INITB`, `ENCBUF` and `DECBUF` access regions (R41). -/
theorem initb_or_buffer_of_regionsOf {i : Instr} {r : Nat × Nat × AccessKind} (h : r ∈ regionsOf i) :
    (∃ kaddr, i = .initb kaddr) ∨ ∃ a b n, i = .encbuf a b n ∨ i = .decbuf a b n := by
  cases i with
  | initb kaddr => exact .inl ⟨kaddr, rfl⟩
  | encbuf a b n => exact .inr ⟨a, b, n, .inl rfl⟩
  | decbuf a b n => exact .inr ⟨a, b, n, .inr rfl⟩
  | _ => cases h

/-! ### The rows of R152, each in the states that reach it -/

section Rows

variable {i : Instr} {s : State}

/-- Row 3. -/
theorem endsIn_of_badLength (hc : needsContext i = true → s.ctxv = true) (h : BadLength i) :
    EndsIn (exec i s) (.status .invalidLength) := by
  have ⟨_, _, _, hb, _⟩ := h
  obtain ⟨src, dst, len, hi⟩ := buffer_of_bufferOperands hb
  obtain ⟨t, ht, hr, -⟩ := invalidLengthIsRejected s src dst len (hc (needsContext_of_buffer hi))
    ((badLength_iff hi).mp h) i hi
  exact ⟨t, 0, 0, ht, hr⟩

/-- Row 4. -/
theorem endsIn_of_zeroLength (hc : needsContext i = true → s.ctxv = true) (h : ZeroLength i) :
    EndsIn (exec i s) (.status .ok) := by
  have ⟨_, _, hb⟩ := h
  obtain ⟨src, dst, len, hi⟩ := buffer_of_bufferOperands hb
  obtain rfl : len = 0 := BitVec.eq_of_toNat_eq ((zeroLength_iff hi).mp h)
  obtain ⟨t, ht, hr, -⟩ := (zeroLengthIsAccepted s src dst i hi).1 (hc (needsContext_of_buffer hi))
  exact ⟨t, 0, 0, ht, hr⟩

/-- A check that fails is the outcome of a buffer command that gets as far as its checks. -/
theorem exec_refused_of_bufCheck {src dst len : Word} {r : Refusal}
    (hi : i = .encbuf src dst len ∨ i = .decbuf src dst len) (hc : needsContext i = true → s.ctxv = true)
    (hl : ¬ BadLength i) (hz : ¬ ZeroLength i)
    (hr : bufCheck s.admission src.toNat dst.toNat len.toNat = some r) : exec i s = .refused r := by
  rw [badLength_iff hi, ne_eq, not_not] at hl
  rw [zeroLength_iff hi] at hz
  exact exec_buffer_refused hi (hc (needsContext_of_buffer hi)) hl hz hr

/-- Row 5. -/
theorem exec_of_regionWraps (hc : needsContext i = true → s.ctxv = true) (hl : ¬ BadLength i)
    (hz : ¬ ZeroLength i) (h : RegionWraps i) : exec i s = .refused .addressWrap := by
  have ⟨_, _, _, hm, _⟩ := h
  obtain ⟨kaddr, rfl⟩ | ⟨src, dst, len, hi⟩ := initb_or_buffer_of_regionsOf hm
  · exact exec_initb_refused (keyCheck_addressWrap _ (regionWraps_initb_iff.mp h))
  · exact exec_refused_of_bufCheck hi hc hl hz (bufCheck_addressWrap _ ((regionWraps_iff hi).mp h))

/-- Row 6. -/
theorem exec_of_partlyOverlaps (hc : needsContext i = true → s.ctxv = true) (hl : ¬ BadLength i)
    (hz : ¬ ZeroLength i) (hw : ¬ RegionWraps i) (h : PartlyOverlaps i) : exec i s = .refused .bufferOverlap := by
  have ⟨_, _, _, hb, _⟩ := h
  obtain ⟨src, dst, len, hi⟩ := buffer_of_bufferOperands hb
  obtain ⟨hne, hsd, hds⟩ := (partlyOverlaps_iff hi).mp h
  obtain ⟨hsrc, hdst⟩ : src.toNat + len.toNat ≤ 2 ^ 64 ∧ dst.toNat + len.toNat ≤ 2 ^ 64 := by
    simpa [regionWraps_iff hi] using hw
  exact exec_refused_of_bufCheck hi hc hl hz (bufCheck_bufferOverlap _ hsrc hdst hne hsd hds)

/-- Row 7. -/
theorem exec_of_byteNotAdmitted (hc : needsContext i = true → s.ctxv = true) (hl : ¬ BadLength i)
    (hz : ¬ ZeroLength i) (hw : ¬ RegionWraps i) (ho : ¬ PartlyOverlaps i) (h : ByteNotAdmitted i s) :
    exec i s = .refused .memoryNotAdmitted := by
  have ⟨_, _, _, hm, _⟩ := h
  obtain ⟨kaddr, rfl⟩ | ⟨src, dst, len, hi⟩ := initb_or_buffer_of_regionsOf hm
  · have hfits : kaddr.toNat + 16 ≤ 2 ^ 64 := by simpa [regionWraps_initb_iff] using hw
    exact exec_initb_refused (keyCheck_memoryNotAdmitted hfits (byteNotAdmitted_initb_iff.mp h))
  · obtain ⟨hsrc, hdst, hapart⟩ := regions_apart hi hw ho
    exact exec_refused_of_bufCheck hi hc hl hz
      (bufCheck_memoryNotAdmitted hsrc hdst hapart ((byteNotAdmitted_iff hi).mp h))

/-- Past rows 2 and 5 to 7 the host has met its duties. -/
theorem executable_of_no_condition (hwf : i.wellFormed = true) (hc : needsContext i = true → s.ctxv = true)
    (hw : ¬ RegionWraps i) (ho : ¬ PartlyOverlaps i) (hn : ¬ ByteNotAdmitted i s) : Executable i s := by
  cases i with
  | init var k0 k1 => exact eq_of_beq hwf
  | initb kaddr => exact keyRegionLegal_of_no_condition hw hn
  | encblk p0 p1 => exact hc rfl
  | decblk c0 c1 => exact hc rfl
  | encbuf src dst len => exact ⟨hc rfl, fun _ _ => regionsLegal_of_no_condition (.inl rfl) hw ho hn⟩
  | decbuf src dst len => exact ⟨hc rfl, fun _ _ => regionsLegal_of_no_condition (.inr rfl) hw ho hn⟩
  | finish => trivial
  | rndf x y k => trivial
  | rndi x y k => trivial

/-- Row 8. -/
theorem endsIn_of_allocationFails (hx : Executable i s) (h : AllocationFails i s) :
    EndsIn (exec i s) (.status .allocationFailure) := by
  obtain ⟨t, ht⟩ := (answersExactlyUnderHostDuties i s).mpr hx
  obtain ⟨hcon, hf⟩ := h
  exact ⟨t, 0, 0, ht, (allocationFailsExactlyWhenNotGranted i s t hcon ht).1.mpr hf⟩

/-- Row 9. -/
theorem endsIn_ok (hx : Executable i s) (hl : ¬ BadLength i) (ha : ¬ AllocationFails i s) :
    EndsIn (exec i s) (.status .ok) := by
  obtain ⟨t, ht⟩ := (answersExactlyUnderHostDuties i s).mpr hx
  obtain ⟨r0, r1, hok⟩ | ⟨hl', -⟩ | ⟨ha', -⟩ := exec_status_cases ht
  · exact ⟨t, r0, r1, ht, hok⟩
  · exact absurd hl' hl
  · exact absurd ha' ha

end Rows

/-! ### The rows in their order (R152) -/

/-- One row of the table: its test decides which of two statements the claim comes to. -/
theorem iff_row {c p a b : Prop} (hpos : c → (p ↔ a)) (hneg : ¬ c → (p ↔ b)) : p ↔ (c → a) ∧ (¬ c → b) := by
  by_cases hc : c
  · simpa [hc] using hpos hc
  · simpa [hc] using hneg hc

/-- A command the decoder can give ends as its first condition says: each row's own rule, under the rows before. -/
theorem endsIn_exec_iff_firstEnding {i : Instr} (hwf : i.wellFormed = true) (s : State) (e : Ending) :
    EndsIn (exec i s) e ↔ FirstEnding i s e := by
  refine iff_row (fun h => endsIn_iff_eq (noContextIsInvalidContext i s h.1 h.2)) fun h => ?_
  have hc : needsContext i = true → s.ctxv = true := by simpa using h
  refine iff_row (fun h => endsIn_iff_eq (endsIn_of_badLength hc h)) fun hl => ?_
  refine iff_row (fun h => endsIn_iff_eq (endsIn_of_zeroLength hc h)) fun hz => ?_
  refine iff_row (fun h => endsIn_iff_eq (exec_of_regionWraps hc hl hz h)) fun hw => ?_
  refine iff_row (fun h => endsIn_iff_eq (exec_of_partlyOverlaps hc hl hz hw h)) fun ho => ?_
  refine iff_row (fun h => endsIn_iff_eq (exec_of_byteNotAdmitted hc hl hz hw ho h)) fun hn => ?_
  have hx := executable_of_no_condition hwf hc hw ho hn
  exact iff_row (fun h => endsIn_iff_eq (endsIn_of_allocationFails hx h)) fun ha => endsIn_iff_eq (endsIn_ok hx hl ha)

/-- Settles O51: a reserved packet has row 1's ending, and any other runs its command from row 2 on. -/
theorem firstConditionGivesEnding : Obligations.FirstConditionGivesEnding := by
  intro s p grant rest hi
  refine ⟨fun hd e => ?_, fun i hd e => ?_⟩
  · rw [step_command_reserved hi hd]
    exact endsIn_fault_iff
  · rw [step_command hi hd]
    exact endsIn_exec_iff_firstEnding (decode_eq_some_iff.mp hd).1 (accept grant rest s) e

end Sys2Proof.Machine
end

section
/-! PROOFS. Reset and hazards (spec/70_reset_and_hazards.md): the reset event, a command that a reset abandons, and
what can be undone at the port (R176) and in the key schedule (R177). -/

namespace Sys2Proof.Machine

/-! ### What can be undone (R176, R177) -/

/-- Settles O17: `RNDI` runs on the two words that the response of `RNDF` carries. -/
theorem rndiUndoesRndfAtPort : Obligations.RndiUndoesRndfAtPort := fun s x y k =>
  ⟨_, _, exec_rndf x y k s, rfl, _, _, exec_rndi _ _ k _, rfl, by simp [roundI_roundF]⟩

/-- Settles O33: `ENCBLK` keeps the context, so `DECBLK` runs under the same subkeys. -/
theorem decblkUndoesEncblkAtPort : Obligations.DecblkUndoesEncblkAtPort := fun _ p0 p1 hc =>
  ⟨_, _, exec_encblk_of_context p0 p1 hc, rfl, _, _, exec_decblk_of_context _ _ hc, rfl,
    by simp [decBlock_encBlock]⟩

/-- With the `y` word and `k` fixed, the second result of a round determines its `x` word: it gives back the first
result, and then the round can be undone (R90). -/
theorem roundF_snd_left_inj {x x' y k : Word} (h : (roundF x y k).2 = (roundF x' y k).2) : x = x' := by
  have hfst : (roundF x y k).1 = (roundF x' y k).1 := (BitVec.xor_right_inj (rotl64 y 3)).mp h
  have hback := roundI_roundF x y k
  rw [h, hfst, roundI_roundF] at hback
  exact (congrArg Prod.fst hback).symm

/-- Settles O19: `RK[0]` is `k0`, and `RK[1]` is the second result of a round on `k1` and `k0`. -/
theorem keyExpandDeterminesKey : Obligations.KeyExpandDeterminesKey := by
  intro k0 k1 j0 j1 h
  have hsub : ∀ i < 32, (schedulePair k0 k1 i).2 = (schedulePair j0 j1 i).2 := fun i hi => by
    rw [← keyExpand_getElem k0 k1 hi, ← keyExpand_getElem j0 j1 hi, h]
  obtain rfl : k0 = j0 := hsub 0 (by decide)
  exact ⟨rfl, roundF_snd_left_inj (hsub 1 (by decide))⟩

/-! ### The reset event (R166) -/

theorem step_reset {s : State} {rest : List Input} (h : s.inputs = .reset :: rest) :
    step s = .next (resetEngine { s with inputs := rest }) := by
  simp only [step, h]

/-- Settles O9: memory and the inputs are not among what the event writes. -/
theorem resetEventEndsContext : Obligations.ResetEventEndsContext := fun _ _ hi =>
  ⟨_, step_reset hi, rfl, rfl, fun _ => rfl, rfl, rfl, rfl⟩

/-! ### The memory a reset in mid-command leaves (R167) -/

/-- A byte that the abandoned command may have copied from its finished memory or not. -/
theorem read_ite_write {m : Memory} (hw : Memory.wf m = true) (done : Memory) (b : Bool) (x a : Nat) :
    Memory.read (if b then Memory.write m x (Memory.read done x) else m) a =
      if b ∧ a = x then Memory.read done a else Memory.read m a := by
  cases b with
  | false => simp
  | true =>
    by_cases hax : a = x
    · simp [Memory.read_write hw, hax]
    · simp [Memory.read_write hw, hax]

/-- That byte keeps the canonical form, copied or not. -/
theorem wf_ite_write {m : Memory} (hw : Memory.wf m = true) (b : Bool) {x : Nat} (v : Byte) (hx : x < 2 ^ 64) :
    Memory.wf (if b then Memory.write m x v else m) = true := by
  cases b with
  | false => exact hw
  | true => exact Memory.wf_write x v hw hx

/-- Which bytes are copied: those of the region whose free value says so. -/
theorem read_mixBytes (done : Memory) {n addr : Nat} (k : Nat) {m : Memory} (hw : Memory.wf m = true)
    (hfit : addr + n ≤ 2 ^ 64) (a : Nat) :
    Memory.read (mixBytes done n addr k m) a =
      if addr ≤ a ∧ a < addr + n ∧ (Config.freeWord (k + (a - addr))).getLsbD 0 then Memory.read done a
      else Memory.read m a := by
  induction n generalizing addr k m with
  | zero => exact (if_neg (by omega)).symm
  | succ n ih =>
    rw [mixBytes, ih (k + 1) (wf_ite_write hw _ _ (by omega)) (by omega), read_ite_write hw]
    by_cases hax : a = addr
    · simp [hax]
    · have hlo : addr + 1 ≤ a ↔ addr ≤ a := by omega
      have hhi : a < addr + 1 + n ↔ a < addr + (n + 1) := by omega
      by_cases hle : addr ≤ a
      · have hidx : k + 1 + (a - (addr + 1)) = k + (a - addr) := by omega
        simp [hax, hlo, hhi, hidx]
      · simp [hax, hlo, hle]

theorem read_mixBytes_old_or_new (done : Memory) {n addr : Nat} (k : Nat) {m : Memory} (hw : Memory.wf m = true)
    (hfit : addr + n ≤ 2 ^ 64) (a : Nat) :
    Memory.read (mixBytes done n addr k m) a = Memory.read m a ∨
      Memory.read (mixBytes done n addr k m) a = Memory.read done a := by
  rw [read_mixBytes done k hw hfit]
  split
  · exact .inr rfl
  · exact .inl rfl

theorem read_mixBytes_outside (done : Memory) {n addr a : Nat} (k : Nat) {m : Memory} (hw : Memory.wf m = true)
    (hfit : addr + n ≤ 2 ^ 64) (ha : a < addr ∨ addr + n ≤ a) :
    Memory.read (mixBytes done n addr k m) a = Memory.read m a := by
  rw [read_mixBytes done k hw hfit, if_neg fun ⟨hlo, hhi, _⟩ => by omega]

/-- A byte outside the `DST` region is outside what the command stores to, whatever its length (R127). -/
theorem outside_storeRegion {i : Instr} {src dst len a : Nat} (hb : bufferOperands i = some (src, dst, len))
    (ha : a < dst ∨ dst + len ≤ a) : a < (storeRegion i).1 ∨ (storeRegion i).1 + (storeRegion i).2 ≤ a := by
  rw [storeRegion_of_bufferOperands hb]
  split
  · exact ha
  · exact .inr (Nat.zero_le a)

/-! ### The step on an abandoned command (R167) -/

theorem step_abandoned {s : State} {p : Packet} {grant : Bool} {rest : List Input} {i : Instr}
    (hi : s.inputs = .abandoned p grant :: rest) (hd : decode p = some i) :
    step s = abandon i (accept grant rest s) (exec i (accept grant rest s)) := by
  simp only [step, hi, hd]

/-- An abandoned command that would have answered ends in the reset of a partly stored memory. -/
theorem abandon_next (i : Instr) (s t : State) :
    abandon i s (.next t) = .next (resetEngine
      { s with mem := mixBytes t.mem (storeRegion i).2 (storeRegion i).1 s.fresh s.mem
               fresh := s.fresh + (storeRegion i).2 }) := rfl

/-- Settles O10: the step is a reset of the state in which the command's store region is old or new byte by byte. -/
theorem abandonedCommandLeavesOldOrNew : Obligations.AbandonedCommandLeavesOldOrNew := by
  intro s p grant rest i t hw hi hd he
  have hfit := storeRegion_fits he
  have hstep := step_abandoned hi hd
  rw [show exec i (accept grant rest s) = .next t from he, abandon_next] at hstep
  refine ⟨_, hstep, rfl, rfl, rfl, rfl, read_mixBytes_old_or_new t.mem _ hw hfit, fun hb a => ?_,
    fun src dst len hb a ha => read_mixBytes_outside t.mem _ hw hfit (outside_storeRegion hb ha)⟩
  have hout : (storeRegion i).1 + (storeRegion i).2 ≤ a := by simp [storeRegion_of_no_bufferOperands hb]
  exact read_mixBytes_outside t.mem _ hw hfit (.inr hout)

end Sys2Proof.Machine
end
